-- ==== Sys2Proof/Word.lean ====
section
/-! DEFINITION. The two widths of the machine (spec 00_scope.md R5, R6): every data byte and
8-bit register is a `Byte`, the program counter and every address is a `Word`. Arithmetic on
both wraps (R8), which is what `BitVec` arithmetic does. -/

namespace Sys2Proof

/-- A `u8` of R6 (`XLEN` = 8). -/
abbrev Byte := BitVec 8

/-- A `u16` of R6 (`ALEN` = 16). -/
abbrev Word := BitVec 16

end Sys2Proof
end

