-- ==== Sys2Proof/Config.lean ====
section
/-! DEFINITION. What is fixed for a machine but not by the source document: the parameters of
spec 00_scope.md R5 that carry a decision number. Definitions that depend on one take a `Config`,
so that a claim can be stated for every admissible value; the default values are
`standardConfig` in Machine/Params.lean. -/

namespace Sys2Proof

/-- The eight flags of the status register, in the order of the list of 10_state.md R27. -/
inductive Flag where
  | carry | zero | interruptDisable | decimal | brk | unused | overflow | negative
  deriving DecidableEq, Repr

/-- The eight recognised operations: the keys of the parameter `OPC` (R5, R77). -/
inductive Opcode where
  | hlt | nop | clc | ldaImm | staAbs | adcImm | cmpImm | bcc
  deriving DecidableEq, Repr

/-- The addressing modes of the source's table (R77). -/
inductive AddressingMode where
  | implied | immediate | absolute | relative
  deriving DecidableEq, Repr

/-- The parameters of R5 marked with a decision. None of them changes during a run (10_state.md R20). -/
structure Config where
  /-- `OPC`: the opcode byte of each operation (decisions D3 and D4; log entries 1 and 2). -/
  opc : Opcode → Byte
  /-- `P_RESET`: the status register after reset (decision D8; log entry 4). -/
  pReset : Byte
  /-- The bit of `P` that holds each flag (decision D7; log entry 3). -/
  flagBit : Flag → Fin 8
  /-- `PORT_STORES`: whether a write to the port also stores (decision D9; log entry 5). -/
  portStores : Bool

/-- What R5 and R27 ask of the parameters: eight distinct opcode bytes, eight distinct bits. -/
structure Config.Legal (cfg : Config) : Prop where
  opc_injective : Function.Injective cfg.opc
  flagBit_injective : Function.Injective cfg.flagBit

/-- Whether the halting step emits a trace record: left open by the source
(91_not_in_source.md N8; log entry 12). No value of it can be proved. -/
opaque Config.traceHaltStep : Bool

/-- Whether a faulting step emits a trace record: left open by the source
(91_not_in_source.md N8; log entry 12). No value of it can be proved. -/
opaque Config.traceFaultStep : Bool

end Sys2Proof
end

