-- ==== Sys2Proof/Machine/Params.lean ====
section
/-! DEFINITION. The values of the parameters of spec 00_scope.md R5: the addresses and sizes that
the source fixes, and the defaults of the parameters that the spec decided. -/

namespace Sys2Proof

/-- `MEMSIZE` (R5, 20_memory.md R40). -/
def memorySize : Nat := 65536

/-- `IO_PORT` (R5, 20_memory.md R44). -/
def ioPort : Word := 0xC000

/-- `RESET_VECTOR`, the address of the vector's low byte (R5, 20_memory.md R56). -/
def resetVector : Word := 0xFFFC

/-- `LOAD_BASE`, where byte 0 of the image goes (R5, 20_memory.md R57). -/
def loadBase : Word := 0x0000

/-- The default of `OPC` (30_encoding.md R77). PRESUMED (unsafe): the values are not in the source,
the spec supplies them by decisions D3 and D4 (log entries 1 and 2). -/
def standardOpcodes : Opcode → Byte
  | .hlt    => 0x00
  | .nop    => 0xEA
  | .clc    => 0x18
  | .ldaImm => 0xA9
  | .staAbs => 0x8D
  | .adcImm => 0x69
  | .cmpImm => 0xC9
  | .bcc    => 0x90

/-- The default layout of `P` (10_state.md R27). PRESUMED (safe: R32 says no program's outcome
depends on it): decision D7 (log entry 3). -/
def standardFlagBits : Flag → Fin 8
  | .carry            => 0
  | .zero             => 1
  | .interruptDisable => 2
  | .decimal          => 3
  | .brk              => 4
  | .unused           => 5
  | .overflow         => 6
  | .negative         => 7

/-- The parameters at the spec's defaults (R5): the machine that `exec` and `step` run. -/
def standardConfig : Config where
  opc        := standardOpcodes
  pReset     := 0x00
  flagBit    := standardFlagBits
  portStores := false

end Sys2Proof
end

