-- ==== Sys2Proof/Syntax.lean ====
section
/-! DEFINITION. The instructions: one constructor per row of spec/opcode_table.json
(spec 30_encoding.md R77), with the operands already assembled (R74 to R76). -/

namespace Sys2Proof

/-- One instruction. Operand bytes have no illegal values (R80). -/
inductive Instr where
  /-- HLT (R100). -/
  | hlt
  /-- NOP (R101). -/
  | nop
  /-- CLC (R102). -/
  | clc
  /-- LDA #imm (R110). -/
  | ldaImm (imm : Byte)
  /-- STA abs (R111). -/
  | staAbs (addr : Word)
  /-- ADC #imm (R120). -/
  | adcImm (imm : Byte)
  /-- CMP #imm (R121). -/
  | cmpImm (imm : Byte)
  /-- BCC rel (R130), the offset byte as it stands in memory. -/
  | bccRel (rel : Byte)
  /-- The table's catch-all row: an opcode byte that is no value of `OPC` (R79, R140). -/
  | unrecognized (op : Byte)
  deriving DecidableEq, Repr

end Sys2Proof
end

