-- ==== Sys2Proof/WellFormed.lean ====
section
/-! DEFINITION. When an instruction is one that some bytes decode to. Operand bytes have no illegal
values (spec 30_encoding.md R80), so the one check is that the catch-all constructor does not carry
the opcode byte of a recognised operation (R79). -/

namespace Sys2Proof

/-- The keys of `OPC`, each once (R77). -/
def Opcode.all : List Opcode :=
  [.hlt, .nop, .clc, .ldaImm, .staAbs, .adcImm, .cmpImm, .bcc]

/-- `Instr.unrecognized op` is well formed when `op` is no value of `OPC` (R79). -/
def Instr.wf (cfg : Config) : Instr → Bool
  | .unrecognized op => Opcode.all.all fun o => cfg.opc o != op
  | .hlt | .nop | .clc | .ldaImm _ | .staAbs _ | .adcImm _ | .cmpImm _ | .bccRel _ => true

end Sys2Proof
end

