-- ==== Sys2Proof/Decode.lean ====
section
/-! DEFINITION. Decoding bytes to instructions and encoding them back (spec 30_encoding.md). The
opcode byte alone decides operation, addressing mode and length (R70, R78); the decoder is total
(R81) and its only rejections are for a list of bytes that ends too early. -/

namespace Sys2Proof

/-! ### Byte order -/

/-- `{hi, lo}` of 00_scope.md R6: 16-bit quantities are little-endian in memory (20_memory.md R50). -/
def mkWord (hi lo : Byte) : Word := hi ++ lo

/-- Bits 7:0 of a word. -/
def loByte (w : Word) : Byte := w.extractLsb' 0 8

/-- Bits 15:8 of a word. -/
def hiByte (w : Word) : Byte := w.extractLsb' 8 8

/-! ### Formats -/

/-- The addressing mode of each operation (R77). -/
def Opcode.mode : Opcode → AddressingMode
  | .hlt | .nop | .clc => .implied
  | .ldaImm | .adcImm | .cmpImm => .immediate
  | .staAbs => .absolute
  | .bcc => .relative

/-- How many operand bytes follow the opcode byte (R71 to R76). -/
def AddressingMode.operandWidth : AddressingMode → Nat
  | .implied => 0
  | .immediate => 1
  | .relative => 1
  | .absolute => 2

/-- The operation an instruction belongs to; none for the catch-all row. -/
def Instr.opcode? : Instr → Option Opcode
  | .hlt => some .hlt
  | .nop => some .nop
  | .clc => some .clc
  | .ldaImm _ => some .ldaImm
  | .staAbs _ => some .staAbs
  | .adcImm _ => some .adcImm
  | .cmpImm _ => some .cmpImm
  | .bccRel _ => some .bcc
  | .unrecognized _ => none

/-- The length in bytes (R78). The spec gives an unrecognized opcode no length, since the core stops
on it without reading further. DESIGN CHOICE (safe): here it is the one byte that was read
(20_memory.md R52; log entry 20). -/
def Instr.length (i : Instr) : Nat :=
  match i.opcode? with
  | some o => 1 + o.mode.operandWidth
  | none => 1

/-! ### Decoding -/

/-- `Decode(op)` of 40_step_cycle.md R92: the operation whose `OPC` value is `op`, comparing the
whole byte (R77), or none where the byte is unrecognized (R79). -/
def opcodeOf (cfg : Config) (op : Byte) : Option Opcode :=
  Opcode.all.find? fun o => cfg.opc o == op

/-- An operation with its operand bytes, `b1` at `PC + 1` and `b2` at `PC + 2`; a format that has no
such byte does not look at it (R71 to R76). -/
def assemble (o : Opcode) (b1 b2 : Byte) : Instr :=
  match o with
  | .hlt    => .hlt
  | .nop    => .nop
  | .clc    => .clc
  | .ldaImm => .ldaImm b1
  | .staAbs => .staAbs (mkWord b2 b1)
  | .adcImm => .adcImm b1
  | .cmpImm => .cmpImm b1
  | .bcc    => .bccRel b1

/-- Why a list of bytes is no instruction. Neither arises at a program counter, where memory always
has the next byte (20_memory.md R41). -/
inductive DecodeError where
  /-- There is no opcode byte. -/
  | noBytes
  /-- The list ends before the operand bytes of the opcode `op` do. -/
  | truncated (op : Byte)
  deriving DecidableEq, Repr

/-- The instruction at the head of a list of bytes in memory order, with the bytes after it (R70, R81). -/
def decode (cfg : Config) : List Byte → Except DecodeError (Instr × List Byte)
  | [] => .error .noBytes
  | op :: rest =>
    match opcodeOf cfg op with
    | none => .ok (.unrecognized op, rest)
    | some o =>
      if rest.length < o.mode.operandWidth then .error (.truncated op)
      else .ok (assemble o (rest.getD 0 0) (rest.getD 1 0), rest.drop o.mode.operandWidth)

/-! ### Encoding -/

/-- The bytes of an instruction in memory order (R71 to R73, R77). -/
def encode (cfg : Config) : Instr → List Byte
  | .hlt             => [cfg.opc .hlt]
  | .nop             => [cfg.opc .nop]
  | .clc             => [cfg.opc .clc]
  | .ldaImm imm      => [cfg.opc .ldaImm, imm]
  | .staAbs addr     => [cfg.opc .staAbs, loByte addr, hiByte addr]
  | .adcImm imm      => [cfg.opc .adcImm, imm]
  | .cmpImm imm      => [cfg.opc .cmpImm, imm]
  | .bccRel rel      => [cfg.opc .bcc, rel]
  | .unrecognized op => [op]

/-! ### Words numbered as the opcode table numbers them -/

/-- The three bytes, in memory order, of an instruction whose low `nbits` bits are those of `w` and
whose other bits are zero: byte 0 is bits 7:0 (30_encoding.md section 1). -/
def tableBytes (nbits w : Nat) : List Byte :=
  let v := w % 2 ^ nbits
  [BitVec.ofNat 8 v, BitVec.ofNat 8 (v / 256), BitVec.ofNat 8 (v / 65536)]

/-- The instruction the decoder reads from a word numbered as spec/opcode_table.json numbers it. -/
def decodeTableWord (nbits w : Nat) : Option Instr :=
  match decode standardConfig (tableBytes nbits w) with
  | .ok (i, _) => some i
  | .error _ => none

end Sys2Proof
end

