-- ==== Sys2Proof/Machine/State.lean ====
section
/-! DEFINITION. The state of the core: the tuple of spec 10_state.md R20 and nothing else (R24, R35),
the reasons a step can stop, and the state after reset with no image placed. -/

namespace Sys2Proof.Machine

/-- `M` of R20 as sparse data: the bytes that are not zero, by rising address. An address that is not
listed reads as 0x00, which is what reset leaves there (70_reset_and_hazards.md R161). The form is
`Memory.wf` in Machine/Ops.lean (log entry 14). -/
abbrev Memory := List Host.Cell

/-- `RUN` of R33. -/
inductive RunStatus where
  | running
  /-- Set by HLT (41_implied.md R100). -/
  | halted
  /-- Set by an unrecognized opcode: the byte and the address it was fetched from (60_exceptions.md R141). -/
  | fault (op : Byte) (addr : Word)
  deriving DecidableEq, Repr

/-- The state `(M, PC, A, X, Y, SP, P, RUN, OUT)` of R20. -/
structure State where
  /-- `M`, the memory (20_memory.md R40). -/
  mem : Memory
  /-- `PC`, the address of the next instruction's opcode byte (R25). -/
  pc  : Word
  /-- `A`, the accumulator (R21). -/
  a   : Byte
  /-- `X`, an index register that no instruction reads or writes (R22). -/
  x   : Byte
  /-- `Y`, an index register that no instruction reads or writes (R22). -/
  y   : Byte
  /-- `SP`, the stack pointer that no instruction reads or writes (R23). -/
  sp  : Byte
  /-- `P`, the packed status register (R27). -/
  p   : Byte
  /-- `RUN`, the run status (R33). -/
  run : RunStatus
  /-- `OUT`, the bytes written to the output port, oldest first (R34). -/
  out : List Byte
  deriving DecidableEq, Repr

/-- Why `step` stops. Both are raised by `step` alone, in a terminal state, where the core has no step
(40_step_cycle.md R95). No instruction's meaning raises one: HLT and an unrecognized opcode answer the
next state in which `run` has left `running`. Safe: the spec has no step there either (log entry 8). -/
inductive Fault where
  /-- `step` in a state whose `run` is `halted`. Safe. -/
  | halted
  /-- `step` in a state whose `run` is `fault op addr`. Safe. -/
  | illegalOpcode (op : Byte) (addr : Word)
  deriving DecidableEq, Repr

/-- What the model declines. -/
inductive Refusal where
  /-- An instruction with no meaning yet: raised by `exec` alone. No arm of `exec` raises it. Safe. -/
  | notModelled (mnemonic : String)
  /-- Raised by `boot` for an image longer than the memory, which the spec has a model refuse
  (70_reset_and_hazards.md R166). Safe. -/
  | imageTooLong (length : Nat)
  /-- Raised by `powerOn` when the loader could not read the image: the core never starts
  (60_exceptions.md R143). Safe. -/
  | loadFailure
  deriving DecidableEq, Repr

/-- The machine right after reset with nothing placed in memory (R36 to R38; vector V-RST-2). -/
def State.reset : State where
  mem := []
  pc  := 0x0000
  a   := 0x00
  x   := 0x00
  y   := 0x00
  sp  := 0x00
  p   := standardConfig.pReset
  run := .running
  out := []

end Sys2Proof.Machine
end

