-- ==== Sys2Proof/Machine/Ops.lean ====
section
/-! DEFINITION. The named operations over memory and registers: the accessors of spec 20_memory.md,
stopping the core (60_exceptions.md R140, 41_implied.md R100) and the reset sequence
(70_reset_and_hazards.md R160 to R166). There is no return from an exception (60_exceptions.md R148). -/

namespace Sys2Proof.Machine

/-! ### Memory as data -/

/-- The canonical form: rising addresses inside the address space, no zero byte listed (log entry 14). -/
abbrev Memory.wf (m : Memory) : Prop :=
  m.Pairwise (fun c d => c.1 < d.1) ∧ ∀ c ∈ m, c.1 < memorySize ∧ c.2 ≠ 0

/-- The byte at an address; 0x00 where nothing is listed (R40, R161). -/
def Memory.read : Memory → Nat → Byte
  | [], _ => 0
  | (k, b) :: m, addr => if k = addr then b else Memory.read m addr

/-- The memory with no entry at an address. -/
def Memory.erase (m : Memory) (addr : Nat) : Memory :=
  m.filter fun c => c.1 != addr

/-- A new entry put before the first higher address. -/
def Memory.insert : Memory → Nat → Byte → Memory
  | [], addr, v => [(addr, v)]
  | (k, b) :: m, addr, v =>
    if addr < k then (addr, v) :: (k, b) :: m else (k, b) :: Memory.insert m addr v

/-- `M[addr] <- v`, keeping the canonical form: a zero byte is not listed. -/
def Memory.write (m : Memory) (addr : Nat) (v : Byte) : Memory :=
  if v = 0 then m.erase addr else (m.erase addr).insert addr v

/-! ### Register updates -/

/-- `PC <- v`. -/
def State.setPc (s : State) (v : Word) : State := { s with pc := v }

/-- `A <- v`. -/
def State.setA (s : State) (v : Byte) : State := { s with a := v }

/-- `P <- v`, the packed byte. -/
def State.setP (s : State) (v : Byte) : State := { s with p := v }

/-- `RUN <- r`. -/
def State.setRun (s : State) (r : RunStatus) : State := { s with run := r }

/-- `M <- m`. -/
def State.setMem (s : State) (m : Memory) : State := { s with mem := m }

/-- `OUT <- OUT ++ [b]` (10_state.md R34). -/
def State.emit (s : State) (b : Byte) : State := { s with out := s.out ++ [b] }

/-- `PC <- PC +_16 n`, wrapping past 0xFFFF (10_state.md R25, R26). -/
def State.advance (s : State) (n : Nat) : State := s.setPc (s.pc + BitVec.ofNat 16 n)

/-! ### Memory accessors -/

/-- `MemRead(addr, 1)` (R43): the stored byte at any address, the port's included (R65). -/
def State.readByte (s : State) (addr : Word) : Byte := s.mem.read addr.toNat

/-- `MemRead(addr, 2)` (R46): low byte at `addr`, high byte at `addr + 1`, which wraps by itself. -/
def State.readWord (s : State) (addr : Word) : Word :=
  mkWord (s.readByte (addr + 1)) (s.readByte addr)

/-- `M[addr] <- v` with no port decode: what the loader does (R66, 70_reset_and_hazards.md R162). -/
def State.poke (s : State) (addr : Word) (v : Byte) : State :=
  s.setMem (s.mem.write addr.toNat v)

/-- `MemWrite(addr, 1, v)` (R44). A write to the port emits the byte; it stores it as well only
under `PORT_STORES` (R45; DEDUCED, unsafe: the spec decides false by D9, log entry 5). -/
def State.writeByte (cfg : Config) (s : State) (addr : Word) (v : Byte) : State :=
  if addr = ioPort then
    if cfg.portStores then (s.poke addr v).emit v else s.emit v
  else s.poke addr v

/-- `MemWrite(addr, 2, w)` (R47): two byte writes, low byte first. -/
def State.writeWord (cfg : Config) (s : State) (addr : Word) (w : Word) : State :=
  (s.writeByte cfg addr (loByte w)).writeByte cfg (addr + 1) (hiByte w)

/-- Bytes placed at rising addresses from `addr`, with no port decode. -/
def State.pokeAll (s : State) (addr : Word) : List Byte → State
  | [] => s
  | b :: bs => State.pokeAll (s.poke addr b) (addr + 1) bs

/-! ### Stopping -/

/-- `RUN <- HALTED` (R100); the PC stays (decision D10, log entry 6). -/
def State.halt (s : State) : State := s.setRun .halted

/-- Taking the one exception: `raise IllegalOpcode(op, PC)` (R140). It records the byte and the
address it was fetched from and changes nothing else (R141; decision D11, log entry 7); there is no
vector, no saved register and no handler (R146). -/
def State.raiseIllegalOpcode (s : State) (op : Byte) : State := s.setRun (.fault op s.pc)

/-! ### Reset -/

/-- Action 1 of reset (R161): everything zero, `OUT` empty, `RUN` running. -/
def clearedState (cfg : Config) : State where
  mem := []
  pc  := 0x0000
  a   := 0x00
  x   := 0x00
  y   := 0x00
  sp  := 0x00
  p   := cfg.pReset
  run := .running
  out := []

/-- Action 2 (R162): image byte `i` goes to `LOAD_BASE + i`, not through the port decode. -/
def placeImage (image : List Byte) (s : State) : State := s.pokeAll loadBase image

/-- Action 3 (R162): `MemWrite(0xFFFC, 2, 0x0000)`. -/
def forceResetVector (cfg : Config) (s : State) : State := s.writeWord cfg resetVector 0x0000

/-- Action 4 (R163): `PC <- MemRead(0xFFFC, 2)`. -/
def loadPcFromVector (s : State) : State := s.setPc (s.readWord resetVector)

/-- Reset with a loaded image: the four actions in the order of R160 (decision D12, log entry 10).
An image longer than the address space is refused (R166). -/
def boot (cfg : Config) (image : List Byte) : Host.Outcome State Fault Refusal :=
  if image.length ≤ memorySize then
    .next (loadPcFromVector (forceResetVector cfg (placeImage image (clearedState cfg))))
  else .refused (.imageTooLong image.length)

/-- Power-on with what the external loader brought: `none` is its LoadFailure, after which the core
never starts (60_exceptions.md R143; log entry 11). -/
def powerOn (cfg : Config) (loaded : Option (List Byte)) : Host.Outcome State Fault Refusal :=
  match loaded with
  | some image => boot cfg image
  | none => .refused .loadFailure

end Sys2Proof.Machine
end

