-- ==== Sys2Proof/Machine/Flags.lean ====
section
/-! DEFINITION. The status register: reading and writing one flag of the packed byte, the seven
accessors of spec 10_state.md R28, and the flag computations of R31 and 43_arithmetic_compare.md R121. -/

namespace Sys2Proof.Machine

/-- The flag `f` of a packed status byte. -/
def readFlag (cfg : Config) (f : Flag) (p : Byte) : Bool := p.getLsbD (cfg.flagBit f).val

/-- The packed byte with the flag `f` set to `b` and every other bit as it was (R28). -/
def assignFlag (cfg : Config) (f : Flag) (b : Bool) (p : Byte) : Byte :=
  if b then p ||| BitVec.twoPow 8 (cfg.flagBit f).val
  else p &&& ~~~(BitVec.twoPow 8 (cfg.flagBit f).val)

/-- `P.f` as a flag (00_scope.md R9). -/
def State.flag (cfg : Config) (s : State) (f : Flag) : Bool := readFlag cfg f s.p

/-- `P.f <- b` (00_scope.md R9). -/
def State.assign (cfg : Config) (s : State) (f : Flag) (b : Bool) : State :=
  s.setP (assignFlag cfg f b s.p)

/-! ### The seven accessors (R28) -/

/-- `getCarry`: the integer 1 or 0, never a boolean (R28). -/
def State.getCarry (cfg : Config) (s : State) : Nat := if s.flag cfg .carry then 1 else 0

/-- `setCarry`. -/
def State.setCarry (cfg : Config) (s : State) : State := s.assign cfg .carry true

/-- `clearCarry`. -/
def State.clearCarry (cfg : Config) (s : State) : State := s.assign cfg .carry false

/-- `setZero`. -/
def State.setZero (cfg : Config) (s : State) : State := s.assign cfg .zero true

/-- `clearZero`. -/
def State.clearZero (cfg : Config) (s : State) : State := s.assign cfg .zero false

/-- `setNegative`. -/
def State.setNegative (cfg : Config) (s : State) : State := s.assign cfg .negative true

/-- `clearNegative`. -/
def State.clearNegative (cfg : Config) (s : State) : State := s.assign cfg .negative false

/-! ### Flag computations -/

/-- `SetZN(v)` (R31): zero iff `v = 0x00`, negative iff bit 7 of `v`; both written on every use. -/
def State.setZN (cfg : Config) (s : State) (v : Byte) : State :=
  let s := if v = 0x00 then s.setZero cfg else s.clearZero cfg
  if v.getLsbD 7 then s.setNegative cfg else s.clearNegative cfg

/-- The flags of a comparison of the accumulator with `v` (R121), unsigned; N is not written. -/
def State.compareFlags (cfg : Config) (s : State) (v : Byte) : State :=
  if s.a = v then (s.setZero cfg).setCarry cfg
  else if s.a.toNat < v.toNat then (s.clearZero cfg).clearCarry cfg
  else (s.clearZero cfg).setCarry cfg

end Sys2Proof.Machine
end

