-- ==== Sys2Proof/Machine/Arithmetic.lean ====
section
/-! DEFINITION. The ALU instructions ADC #imm and CMP #imm (spec 43_arithmetic_compare.md). They
differ from the historical chip in the flags they write, and the spec's table wins (90_conflicts.md C7). -/

namespace Sys2Proof.Machine

/-- The sum of ADC: exact, then modulo 256 (R120, R122). Binary whatever `P.D` holds (decision D20, log entry 17). -/
def adcSum (a imm : Byte) (carryIn : Nat) : Byte :=
  BitVec.ofNat 8 (a.toNat + imm.toNat + carryIn)

/-- ADC #imm (R120): `A <- sum`, `SetZN(sum)`; C and V keep their values. -/
def adcImmEffect (cfg : Config) (imm : Byte) (s : State) : State :=
  let sum := adcSum s.a imm (s.getCarry cfg)
  ((s.setA sum).setZN cfg sum).advance 2

/-- CMP #imm (R121): Z and C from the unsigned comparison; A and N keep their values. -/
def cmpImmEffect (cfg : Config) (imm : Byte) (s : State) : State :=
  (s.compareFlags cfg imm).advance 2

/-- The meaning of ADC #imm. -/
def execAdcImm (imm : Byte) (s : State) : Host.Outcome State Fault Refusal :=
  .next (adcImmEffect standardConfig imm s)

/-- The meaning of CMP #imm. -/
def execCmpImm (imm : Byte) (s : State) : Host.Outcome State Fault Refusal :=
  .next (cmpImmEffect standardConfig imm s)

end Sys2Proof.Machine
end

