-- ==== Sys2Proof/Machine/Operands.lean ====
section
/-! DEFINITION. Extension of operand bytes (spec 00_scope.md R7), the operand forms of
30_encoding.md R74 to R76 read from memory, and the fetch of 40_step_cycle.md R91 and R92. -/

namespace Sys2Proof.Machine

/-- `zext_16` (R7). -/
def zext16 (b : Byte) : Word := b.zeroExtend 16

/-- `sext_16` (R7): the two's-complement reading of the byte, -128 to 127. -/
def sext16 (b : Byte) : Word := b.signExtend 16

/-- The target of a taken branch at `pc`: relative to the next instruction (44_branch.md R130). -/
def branchTarget (pc : Word) (rel : Byte) : Word := pc + 2 + sext16 rel

/-- The opcode byte at the program counter (R91). -/
def State.fetchOpcode (s : State) : Byte := s.readByte s.pc

/-- The immediate or relative operand byte (R75). -/
def State.operandByte (s : State) : Byte := s.readByte (s.pc + 1)

/-- The instruction at the program counter, with its operands read from the state before the step
(R92; 20_memory.md R52, R63). An absolute operand is the little-endian word at `PC + 1` (R76). An
unrecognized opcode takes no operand byte (60_exceptions.md R141). -/
def fetchInstr (cfg : Config) (s : State) : Instr :=
  match opcodeOf cfg s.fetchOpcode with
  | none => .unrecognized s.fetchOpcode
  | some o => assemble o s.operandByte (s.readByte (s.pc + 2))

end Sys2Proof.Machine
end

