-- ==== Sys2Proof/Machine/Branch.lean ====
section
/-! DEFINITION. The one control transfer, BCC rel (spec 44_branch.md). -/

namespace Sys2Proof.Machine

/-- BCC rel (R130): to `PC + 2 + sext_16(rel8)` if the carry is clear, else to `PC + 2`. -/
def bccRelEffect (cfg : Config) (rel : Byte) (s : State) : State :=
  if s.getCarry cfg = 0 then s.setPc (branchTarget s.pc rel) else s.advance 2

/-- The meaning of BCC rel. -/
def execBccRel (rel : Byte) (s : State) : Host.Outcome State Fault Refusal :=
  .next (bccRelEffect standardConfig rel s)

end Sys2Proof.Machine
end

