-- ==== Sys2Proof/Machine/Illegal.lean ====
section
/-! DEFINITION. The unrecognized opcode, the catch-all row of the opcode table (spec
60_exceptions.md R140): it takes the one exception of the core. -/

namespace Sys2Proof.Machine

/-- `raise IllegalOpcode(op, PC)` (R140, R141). -/
def unrecognizedEffect (op : Byte) (s : State) : State := s.raiseIllegalOpcode op

/-- The meaning of an unrecognized opcode: the next state is the terminal one with `run = fault op pc`. -/
def execUnrecognized (op : Byte) (s : State) : Host.Outcome State Fault Refusal :=
  .next (unrecognizedEffect op s)

end Sys2Proof.Machine
end

