-- ==== Sys2Proof/Machine/Implied.lean ====
section
/-! DEFINITION. The implied-operand instructions HLT, NOP and CLC (spec 41_implied.md). Each has its
effect for any parameters (`…Effect`), and its meaning at the standard ones (`exec…`). -/

namespace Sys2Proof.Machine

/-- HLT (R100): `RUN <- HALTED`, nothing else. -/
def hltEffect (s : State) : State := s.halt

/-- NOP (R101): only the PC advances. -/
def nopEffect (s : State) : State := s.advance 1

/-- CLC (R102): `P.C <- 0`. -/
def clcEffect (cfg : Config) (s : State) : State := (s.clearCarry cfg).advance 1

/-- The meaning of HLT. -/
def execHlt (s : State) : Host.Outcome State Fault Refusal := .next (hltEffect s)

/-- The meaning of NOP. -/
def execNop (s : State) : Host.Outcome State Fault Refusal := .next (nopEffect s)

/-- The meaning of CLC. -/
def execClc (s : State) : Host.Outcome State Fault Refusal := .next (clcEffect standardConfig s)

end Sys2Proof.Machine
end

