-- ==== Sys2Proof/Machine/LoadStore.lean ====
section
/-! DEFINITION. The load and the store, LDA #imm and STA abs (spec 42_load_store.md). -/

namespace Sys2Proof.Machine

/-- LDA #imm (R110): `A <- imm8`, `SetZN(imm8)`. -/
def ldaImmEffect (cfg : Config) (imm : Byte) (s : State) : State :=
  ((s.setA imm).setZN cfg imm).advance 2

/-- STA abs (R111): `MemWrite(addr, 1, A)`; the operand was read before the store (20_memory.md R63). -/
def staAbsEffect (cfg : Config) (addr : Word) (s : State) : State :=
  (s.writeByte cfg addr s.a).advance 3

/-- The meaning of LDA #imm. -/
def execLdaImm (imm : Byte) (s : State) : Host.Outcome State Fault Refusal :=
  .next (ldaImmEffect standardConfig imm s)

/-- The meaning of STA abs. -/
def execStaAbs (addr : Word) (s : State) : Host.Outcome State Fault Refusal :=
  .next (staAbsEffect standardConfig addr s)

end Sys2Proof.Machine
end

