-- ==== Sys2Proof/Machine/Cycle.lean ====
section
/-! DEFINITION. The step and the run for any parameters (spec 40_step_cycle.md), and what `step` needs
of them. `exec` and `step` are these at `standardConfig` (Sys2Proof/Laws/Step.lean). -/

namespace Sys2Proof.Machine

/-- The effect of an instruction (R93). No instruction can fail to have one (60_exceptions.md R142, R145). -/
def effect (cfg : Config) : Instr → State → State
  | .hlt             => hltEffect
  | .nop             => nopEffect
  | .clc             => clcEffect cfg
  | .ldaImm imm      => ldaImmEffect cfg imm
  | .staAbs addr     => staAbsEffect cfg addr
  | .adcImm imm      => adcImmEffect cfg imm
  | .cmpImm imm      => cmpImmEffect cfg imm
  | .bccRel rel      => bccRelEffect cfg rel
  | .unrecognized op => unrecognizedEffect op

/-- Why a state takes no step (R95); none while the core is running. -/
def stopReason : RunStatus → Option Fault
  | .running => none
  | .halted => some .halted
  | .fault op addr => some (.illegalOpcode op addr)

/-- One step from a running state (R90, R93), none in a terminal state (R95). -/
def stepWith (cfg : Config) (s : State) : Option State :=
  match stopReason s.run with
  | none => some (effect cfg (fetchInstr cfg s) s)
  | some _ => none

/-- The state after at most `k` steps: the run of R94 cut off after `k`, staying in a terminal state
once it is reached (R95, R97). The hardware has no bound on the steps; `k` is fuel (decision D19, log entry 18). -/
def runFor (cfg : Config) : Nat → State → State
  | 0, s => s
  | k + 1, s =>
    match stepWith cfg s with
    | some t => runFor cfg k t
    | none => s

/-- The bytes of an instruction put at the program counter of a core that is running, so that the
next step fetches them (log entry 10). -/
def State.placeAtPc (s : State) (bytes : List Byte) : State :=
  (s.pokeAll s.pc bytes).setRun .running

end Sys2Proof.Machine
end

