-- ==== Sys2Proof/Machine/Dispatch.lean ====
section
/-! DEFINITION. Execute (spec 40_step_cycle.md R93): one meaning per instruction. The precondition
`RUN = RUNNING` is checked by `step`. -/

namespace Sys2Proof.Machine

def exec (i : Instr) (s : State) : Host.Outcome State Fault Refusal :=
  match i with
  | .hlt => Sys2Proof.Machine.execHlt s
  | .nop => Sys2Proof.Machine.execNop s
  | .clc => Sys2Proof.Machine.execClc s
  | .ldaImm imm => Sys2Proof.Machine.execLdaImm imm s
  | .staAbs addr => Sys2Proof.Machine.execStaAbs addr s
  | .adcImm imm => Sys2Proof.Machine.execAdcImm imm s
  | .cmpImm imm => Sys2Proof.Machine.execCmpImm imm s
  | .bccRel rel => Sys2Proof.Machine.execBccRel rel s
  | .unrecognized op => Sys2Proof.Machine.execUnrecognized op s

end Sys2Proof.Machine
end

