-- ==== Sys2Proof/Machine/Step.lean ====
section
/-! DEFINITION. The one transition of the machine (spec 40_step_cycle.md R90 to R95). -/

namespace Sys2Proof.Machine

/-- Fetch, decode and execute one instruction while the core is running (R93); a terminal state has no
step (R95) and the reason is answered (log entry 8). -/
def step (s : State) : Host.Outcome State Fault Refusal :=
  match stopReason s.run with
  | none => exec (fetchInstr standardConfig s) s
  | some reason => .fault reason

/-- `s` with an instruction, given as a word of the opcode table, where `step` fetches its next one. -/
def State.withFetchWord (s : State) (nbits w : Nat) : State := s.placeAtPc (tableBytes nbits w)

end Sys2Proof.Machine
end

