-- ==== Sys2Proof/Listing.lean ====
section
/-! DEFINITION. The assembly notation of spec 30_encoding.md R82 to R84: mnemonics and operand text,
the offset byte an assembler encodes for a branch, and the bytes of a listing. Notation only: no part of
the machine uses it (decision D5; log entry 19). -/

namespace Sys2Proof

/-- The mnemonic of each operation (R77, R82). -/
def Opcode.mnemonic : Opcode → String
  | .hlt => "HLT"
  | .nop => "NOP"
  | .clc => "CLC"
  | .ldaImm => "LDA"
  | .staAbs => "STA"
  | .adcImm => "ADC"
  | .cmpImm => "CMP"
  | .bcc => "BCC"

/-- A hexadecimal digit. -/
def hexDigit (n : Nat) : Char :=
  ['0', '1', '2', '3', '4', '5', '6', '7', '8', '9', 'A', 'B', 'C', 'D', 'E', 'F'].getD n '0'

/-- A byte as `$` and two hexadecimal digits (R83). -/
def hexByte (b : Byte) : String :=
  String.ofList ['$', hexDigit (b.toNat / 16), hexDigit (b.toNat % 16)]

/-- A word as `$` and four hexadecimal digits (R83). -/
def hexWord (w : Word) : String :=
  String.ofList ['$', hexDigit (w.toNat / 4096), hexDigit (w.toNat / 256 % 16),
    hexDigit (w.toNat / 16 % 16), hexDigit (w.toNat % 16)]

/-- An instruction at the address `pc` as a line of a listing (R83, R84): a relative operand is
written as its target address, an unrecognized opcode as the `.byte` directive. -/
def Instr.listing (pc : Word) : Instr → String
  | .hlt => "HLT"
  | .nop => "NOP"
  | .clc => "CLC"
  | .ldaImm imm => "LDA #" ++ hexByte imm
  | .staAbs addr => "STA " ++ hexWord addr
  | .adcImm imm => "ADC #" ++ hexByte imm
  | .cmpImm imm => "CMP #" ++ hexByte imm
  | .bccRel rel => "BCC " ++ hexWord (Machine.branchTarget pc rel)
  | .unrecognized op => ".byte " ++ hexByte op

/-- The signed distance from the instruction after a BCC at `pc` to a target, modulo 65536, read as a
signed 16-bit number. -/
def branchDistance (pc target : Word) : Int := (target - (pc + 2)).toInt

/-- The offset byte for a BCC at `pc` to `target` (R83): `(target - (pc + 2)) mod 256`, where the signed
difference lies in -128 to 127. -/
def relFor (pc target : Word) : Option Byte :=
  if -128 ≤ branchDistance pc target ∧ branchDistance pc target ≤ 127 then
    some (loByte (target - (pc + 2)))
  else none

/-- A line of a listing with its labels already resolved to addresses (R83, R84). -/
inductive Line where
  /-- An instruction whose operand needs no address of its own. -/
  | instr (i : Instr)
  /-- `BCC target`. -/
  | bccTo (target : Word)
  /-- `.byte v`: one literal byte. -/
  | byte (v : Byte)
  /-- `.org addr`: the address of the next byte. -/
  | org (addr : Word)
  deriving DecidableEq, Repr

/-- The bytes of a listing with the address of each, starting at `pc`; none where a branch does not
reach its target. -/
def assembleFrom (cfg : Config) : Word → List Line → Option (List (Word × Byte))
  | _, [] => some []
  | _, .org addr :: rest => assembleFrom cfg addr rest
  | pc, .byte v :: rest => (assembleFrom cfg (pc + 1) rest).map ((pc, v) :: ·)
  | pc, .instr i :: rest =>
    (assembleFrom cfg (pc + BitVec.ofNat 16 i.length) rest).map
      ((encode cfg i).mapIdx (fun k b => (pc + BitVec.ofNat 16 k, b)) ++ ·)
  | pc, .bccTo target :: rest =>
    match relFor pc target with
    | some rel =>
      (assembleFrom cfg (pc + 2) rest).map
        ((encode cfg (.bccRel rel)).mapIdx (fun k b => (pc + BitVec.ofNat 16 k, b)) ++ ·)
    | none => none

end Sys2Proof
end

