-- ==== Sys2Proof/Machine/HostView.lean ====
section
/-! DEFINITION. What the host gets from the core: the result of a run (spec 40_step_cycle.md R97,
60_exceptions.md R147) and the optional diagnostic trace (R154, R155). Nothing here is state, and no
rule of the machine reads it. -/

namespace Sys2Proof.Machine

/-- The process exit code a terminal state stands for (R147); none while the core is running. -/
def RunStatus.exitCode : RunStatus → Option Nat
  | .running => none
  | .halted => some 0
  | .fault _ _ => some 1

/-- The result of a finished run, `(OUT, RUN)` (40_step_cycle.md R97); none while the core is running. -/
def State.result (s : State) : Option (List Byte × RunStatus) :=
  match s.run with
  | .running => none
  | r => some (s.out, r)

/-- One record of the trace (R154): two values from before the step, the rest from after it. -/
structure TraceRecord where
  pcBefore : Word
  opcode : Byte
  a : Byte
  x : Byte
  y : Byte
  sp : Byte
  p : Byte
  pc : Word
  deriving DecidableEq, Repr

/-- Whether the step of an instruction emits a record: the source does not say for a halting and for
a faulting step, so those two are open (91_not_in_source.md N8; log entry 12). -/
def emitsRecord : Instr → Bool
  | .hlt => Config.traceHaltStep
  | .unrecognized _ => Config.traceFaultStep
  | .nop | .clc | .ldaImm _ | .staAbs _ | .adcImm _ | .cmpImm _ | .bccRel _ => true

/-- The record of a step from `s` to `t` (R154). -/
def traceRecord (s t : State) : TraceRecord where
  pcBefore := s.pc
  opcode := s.fetchOpcode
  a := t.a
  x := t.x
  y := t.y
  sp := t.sp
  p := t.p
  pc := t.pc

/-- `TRACE` (R154): the records of at most `k` steps, oldest first. -/
def traceFor (cfg : Config) : Nat → State → List TraceRecord
  | 0, _ => []
  | k + 1, s =>
    match stepWith cfg s with
    | some t =>
      if emitsRecord (fetchInstr cfg s) then traceRecord s t :: traceFor cfg k t else traceFor cfg k t
    | none => []

end Sys2Proof.Machine
end

