-- ==== Sys2Proof/Safety.lean ====
section
/-! DEFINITION. The terms that claims are stated in: what a step leaves alone, what every reachable
state has, and the relations between two states that differ only in what a rule says does not matter. -/

namespace Sys2Proof.Machine

/-- Every byte of memory reads the same. -/
def SameMemory (s t : State) : Prop := ∀ addr : Word, t.readByte addr = s.readByte addr

/-- Every flag outside the list is the same, at the standard layout. -/
def SameFlagsBut (written : List Flag) (s t : State) : Prop :=
  ∀ f, f ∉ written → t.flag standardConfig f = s.flag standardConfig f

/-- The three inert registers are the same (10_state.md R22, R23). -/
def SameInert (s t : State) : Prop := t.x = s.x ∧ t.y = s.y ∧ t.sp = s.sp

/-- The flags that an instruction writes: the "Flags affected" column (10_state.md R29). -/
def flagsWritten : Instr → List Flag
  | .clc => [.carry]
  | .ldaImm _ | .adcImm _ => [.zero, .negative]
  | .cmpImm _ => [.zero, .carry]
  | .hlt | .nop | .staAbs _ | .bccRel _ | .unrecognized _ => []

/-- The five flags that no instruction writes or reads (10_state.md R30). -/
def inertFlags : List Flag := [.interruptDisable, .decimal, .brk, .unused, .overflow]

/-- A run status agrees with what stands at the program counter: a halted core stands on a halt
opcode, a faulted one on the unrecognized byte it reports, at the address it reports
(41_implied.md R100, 60_exceptions.md R140, R141). -/
def StatusMatchesMemory (s : State) : Prop :=
  match s.run with
  | .running => True
  | .halted => opcodeOf standardConfig s.fetchOpcode = some .hlt
  | .fault op addr => addr = s.pc ∧ op = s.fetchOpcode ∧ opcodeOf standardConfig op = none

/-- The invariant of the machine: memory in canonical form, and the run status explained by memory. -/
def Inv (s : State) : Prop := s.mem.wf ∧ StatusMatchesMemory s

/-- No unrecognized opcode has stopped the core. -/
def Safe (s : State) : Prop := ∀ op addr, s.run ≠ .fault op addr

/-- Two states with the same named flags under two layouts of `P`, and otherwise equal (10_state.md R32). -/
def SameUpToLayout (cfg₁ cfg₂ : Config) (s₁ s₂ : State) : Prop :=
  s₁.setP 0 = s₂.setP 0 ∧ ∀ f, s₁.flag cfg₁ f = s₂.flag cfg₂ f

/-- Two states that agree on everything but the flags other than the carry. -/
def SameUpToOtherFlags (cfg : Config) (s₁ s₂ : State) : Prop :=
  s₁.setP 0 = s₂.setP 0 ∧ s₁.flag cfg .carry = s₂.flag cfg .carry

/-- Two states that agree on everything but the stored byte at the port address. -/
def SameUpToPortByte (s₁ s₂ : State) : Prop :=
  s₁.setMem [] = s₂.setMem [] ∧ ∀ addr : Word, addr ≠ ioPort → s₁.readByte addr = s₂.readByte addr

/-- No byte of the instruction at the program counter lies at the port address. -/
def FetchAvoidsPort (cfg : Config) (s : State) : Prop :=
  ∀ k < (fetchInstr cfg s).length, s.pc + BitVec.ofNat 16 k ≠ ioPort

end Sys2Proof.Machine
end

