-- ==== Sys2Proof/Certificates/Slice0/Obligations.lean ====
section
/-! DEFINITION. The statements for the provers, made from the numbered rules of spec/. A statement
for every `cfg` holds for every value of the parameters of 00_scope.md R5; one about `exec`, `step` or
`standardConfig` is about the spec's default values. Where a clause rests on a decision of the spec
(D<n> of 92_eei_decisions.md) the docstring names it and the log entry. -/

open Sys2Proof Sys2Proof.Machine

/-! ### Encoding -/

/-- Decoding undoes encoding for every instruction, every operand, every admissible opcode map and
whatever bytes follow (30_encoding.md R70, R77, R81). That an unrecognized opcode is the one byte read is
the model's choice (log entry 20; 20_memory.md R52). -/
def Obligations.DecodeInvertsEncode : Prop :=
  ∀ cfg : Config, cfg.Legal → ∀ i : Instr, i.wf cfg = true → ∀ rest : List Byte,
    decode cfg (encode cfg i ++ rest) = .ok (i, rest)

/-- Each list of bytes has one meaning: what the decoder reads encodes back to the bytes it took, and
is well formed (30_encoding.md R78, R79). That an unrecognized opcode takes the one byte read is the
model's choice (log entry 20; 20_memory.md R52). -/
def Obligations.EncodeInvertsDecode : Prop :=
  ∀ (cfg : Config) (bytes : List Byte) (i : Instr) (rest : List Byte),
    decode cfg bytes = .ok (i, rest) → encode cfg i ++ rest = bytes ∧ i.wf cfg = true

/-- The decoder is total on three bytes, reads as many bytes as the instruction is long, and its length
follows from the operation alone (30_encoding.md R78, R81). For an unrecognized opcode, to which R78 gives
no length, the length of one is the model's choice: the one byte that 20_memory.md R52 says is read (log
entry 20). -/
def Obligations.DecodeTakesTheLength : Prop :=
  ∀ (cfg : Config) (bytes : List Byte), 3 ≤ bytes.length →
    ∃ i : Instr, decode cfg bytes = .ok (i, bytes.drop i.length)
      ∧ ∀ op rest, bytes = op :: rest → i.opcode? = opcodeOf cfg op

/-- Every byte that is no value of `OPC` is unrecognized, and no other; at the default map (decisions
D3 and D4, log entries 1 and 2) these are all but eight (30_encoding.md R79). That
the decoder then takes the one byte read is the model's choice (log entry 20; 20_memory.md R52). -/
def Obligations.OtherBytesAreUnrecognized : Prop :=
  (∀ (cfg : Config) (op : Byte), (∀ o, cfg.opc o ≠ op) ↔
      ∀ rest, decode cfg (op :: rest) = .ok (.unrecognized op, rest)) ∧
  ∀ op : Byte, op ∉ [0x00#8, 0x18#8, 0x69#8, 0x8D#8, 0x90#8, 0xA9#8, 0xC9#8, 0xEA#8] ↔
      ∀ rest, decode standardConfig (op :: rest) = .ok (.unrecognized op, rest)

/-- A few words written out from the opcode table decode to their instructions. The byte values are
the spec's decisions D3 and D4 (log entries 1 and 2). -/
def Obligations.TableWordsDecode : Prop :=
  decodeTableWord 8 0x00 = some .hlt ∧ decodeTableWord 8 0xEA = some .nop ∧
  decodeTableWord 8 0x18 = some .clc ∧ decodeTableWord 16 0x41A9 = some (.ldaImm 0x41) ∧
  decodeTableWord 24 0xC0028D = some (.staAbs 0xC002) ∧ decodeTableWord 16 0x0169 = some (.adcImm 0x01) ∧
  decodeTableWord 16 0x44C9 = some (.cmpImm 0x44) ∧ decodeTableWord 16 0xF690 = some (.bccRel 0xF6) ∧
  decodeTableWord 8 0xFF = some (.unrecognized 0xFF)

/-! ### The step -/

/-- While the core is running, a step is the meaning of the instruction that the three bytes at the
program counter decode to; nothing is added around it (40_step_cycle.md R90 to R93). -/
def Obligations.StepRunsTheDecodedInstruction : Prop :=
  ∀ (s : State) (i : Instr) (rest : List Byte), s.run = .running →
    decode standardConfig [s.readByte s.pc, s.readByte (s.pc + 1), s.readByte (s.pc + 2)] = .ok (i, rest) →
    step s = exec i s

/-- An instruction given as a table word and placed where the next fetch looks is the one that runs,
at every program counter, the top of memory included (log entry 10). -/
def Obligations.PlacedWordIsTheOneThatRuns : Prop :=
  ∀ (s : State) (nbits w : Nat) (i : Instr), decodeTableWord nbits w = some i →
    step (s.withFetchWord nbits w) = exec i (s.withFetchWord nbits w)

/-- No instruction can fail to complete, and a running core always has a step: the only exception of
the hardware is itself a next state (20_memory.md R48, 60_exceptions.md R142, R145). -/
def Obligations.EveryInstructionCompletes : Prop :=
  (∀ (i : Instr) (s : State), ∃ t, exec i s = .next t) ∧
  ∀ s : State, s.run = .running → ∃ t, step s = .next t

/-- How a step can leave the run status: HLT halts, an unrecognized opcode faults with the byte and its
address, and every other opcode goes on (60_exceptions.md R142, R145). -/
def Obligations.RunStatusFollowsTheOpcode : Prop :=
  ∀ s t : State, step s = .next t →
    match opcodeOf standardConfig s.fetchOpcode with
    | none => t.run = .fault s.fetchOpcode s.pc
    | some .hlt => t.run = .halted
    | some _ => t.run = .running

/-- A terminal state has no step and nothing in it ever changes again (40_step_cycle.md R95; that the
core stops by leaving RUNNING is decision D2, log entry 8). -/
def Obligations.TerminalStatesNeverChange : Prop :=
  ∀ (cfg : Config) (s : State), s.run ≠ .running → stepWith cfg s = none ∧ ∀ k, runFor cfg k s = s

/-- A run stops only at a halt opcode or at an unrecognized one, and there it does stop: whatever the
parameters, after any number of steps from a running state the core is still running, or it is halted
and stands on HLT's byte, or it reports the unrecognized byte it stands on; and the step after a running
state leaves it running exactly when the byte there is a recognised opcode other than HLT's
(40_step_cycle.md R94, R95; decisions D2, D10 and D11, log entries 6 to 8). -/
def Obligations.RunStopsOnlyAtHaltOrUnrecognized : Prop :=
  ∀ (cfg : Config) (k : Nat) (s : State), s.run = .running →
    ((runFor cfg k s).run = .running ∨
      ((runFor cfg k s).run = .halted ∧ opcodeOf cfg (runFor cfg k s).fetchOpcode = some .hlt) ∨
      ((runFor cfg k s).run = .fault (runFor cfg k s).fetchOpcode (runFor cfg k s).pc ∧
        opcodeOf cfg (runFor cfg k s).fetchOpcode = none)) ∧
    ((runFor cfg k s).run = .running →
      ((runFor cfg (k + 1) s).run = .running ↔
        ∃ o : Opcode, o ≠ .hlt ∧ opcodeOf cfg (runFor cfg k s).fetchOpcode = some o))

/-- The run of the model is the host's run of `core`: the two agree as long as the core is running
(40_step_cycle.md R94, R97). -/
def Obligations.HostRunAgreesWithRunFor : Prop :=
  ∀ (k : Nat) (s : State),
    (∀ t : State, Host.Core.run Sys2Proof.core k s = .next t → runFor standardConfig k s = t) ∧
    ((runFor standardConfig k s).run = .running →
      Host.Core.run Sys2Proof.core k s = .next (runFor standardConfig k s))

/-- A step from a state that no unrecognized opcode has stopped stays so exactly when the byte at the
program counter is a recognised opcode (60_exceptions.md R140, R145; decision D2, log entry 8). -/
def Obligations.StepStaysSafeExactlyOnRecognisedOpcodes : Prop :=
  ∀ s t : State, Safe s → step s = .next t →
    (Safe t ↔ ∃ o : Opcode, standardConfig.opc o = s.fetchOpcode)

/-- Once a run has a result it keeps it, and the exit code it stands for is 0 exactly for a halt and 1
exactly for a fault (40_step_cycle.md R97, 60_exceptions.md R147; decision D2, log entry 8). -/
def Obligations.FinishedRunKeepsItsResult : Prop :=
  ∀ (cfg : Config) (k : Nat) (s : State) (r : List Byte × RunStatus),
    (runFor cfg k s).result = some r →
    (∀ j, (runFor cfg (k + j) s).result = some r) ∧ r.1 = (runFor cfg k s).out ∧
    ((r.2 = .halted ∧ r.2.exitCode = some 0) ∨
      ∃ op addr, r.2 = .fault op addr ∧ r.2.exitCode = some 1)

/-! ### The instructions: result and frame -/

/-- HLT: the run status becomes halted and nothing else changes (41_implied.md R100). The status is the
spec's decision D2, the unchanged PC its decision D10 (log entries 6 and 8). -/
def Obligations.HltHaltsAndChangesNothingElse : Prop :=
  ∀ s : State, ∃ t, exec .hlt s = .next t ∧ t.run = .halted ∧ t.pc = s.pc ∧ t.a = s.a ∧
    t.p = s.p ∧ SameInert s t ∧ SameMemory s t ∧ t.out = s.out

/-- NOP: only the PC advances, by one, wrapping (41_implied.md R101). -/
def Obligations.NopOnlyAdvances : Prop :=
  (∀ cfg : Config, encode cfg .nop = [cfg.opc .nop]) ∧
  ∀ s : State, ∃ t, exec .nop s = .next t ∧ t.pc.toNat = (s.pc.toNat + 1) % 65536 ∧ t.a = s.a ∧
    t.p = s.p ∧ SameInert s t ∧ SameMemory s t ∧ t.out = s.out ∧ t.run = s.run

/-- CLC: the carry becomes 0, the PC advances by one, nothing else changes; and no instruction but CMP
can raise the carry (41_implied.md R102). -/
def Obligations.ClcClearsOnlyTheCarry : Prop :=
  (∀ cfg : Config, encode cfg .clc = [cfg.opc .clc]) ∧
  (∀ s : State, ∃ t, exec .clc s = .next t ∧ t.flag standardConfig .carry = false ∧
    SameFlagsBut [.carry] s t ∧ t.pc.toNat = (s.pc.toNat + 1) % 65536 ∧ t.a = s.a ∧
    SameInert s t ∧ SameMemory s t ∧ t.out = s.out ∧ t.run = s.run) ∧
  ∀ (i : Instr) (s t : State), exec i s = .next t → s.flag standardConfig .carry = false →
    t.flag standardConfig .carry = true → ∃ imm, i = .cmpImm imm

/-- LDA #imm: the operand byte after the opcode goes to the accumulator, zero and negative follow it,
nothing else changes (42_load_store.md R110). -/
def Obligations.LdaLoadsAndSetsZeroAndNegative : Prop :=
  (∀ cfg : Config, ∀ imm, encode cfg (.ldaImm imm) = [cfg.opc .ldaImm, imm]) ∧
  (∀ s : State, opcodeOf standardConfig s.fetchOpcode = some .ldaImm →
    fetchInstr standardConfig s = .ldaImm (s.readByte (s.pc + 1))) ∧
  ∀ (imm : Byte) (s : State), ∃ t, exec (.ldaImm imm) s = .next t ∧ t.a = imm ∧
    t.flag standardConfig .zero = decide (imm.toNat = 0) ∧
    t.flag standardConfig .negative = decide (0x80 ≤ imm.toNat) ∧
    SameFlagsBut [.zero, .negative] s t ∧ t.pc.toNat = (s.pc.toNat + 2) % 65536 ∧
    SameInert s t ∧ SameMemory s t ∧ t.out = s.out ∧ t.run = s.run

/-- STA abs: at the port the accumulator is emitted and memory stays, anywhere else it is stored at
exactly that address and nothing is emitted; the operand is the little-endian word after the opcode
(42_load_store.md R111). That the port does not store is the spec's decision D9 (log entry 5). -/
def Obligations.StaStoresOrEmits : Prop :=
  (∀ s : State, opcodeOf standardConfig s.fetchOpcode = some .staAbs →
    fetchInstr standardConfig s = .staAbs (s.readWord (s.pc + 1))) ∧
  ∀ (addr : Word) (s : State), ∃ t, exec (.staAbs addr) s = .next t ∧
    (addr = 0xC000 → t.out = s.out ++ [s.a] ∧ SameMemory s t) ∧
    (addr ≠ 0xC000 → t.out = s.out ∧ t.readByte addr = s.a ∧
      ∀ other : Word, other ≠ addr → t.readByte other = s.readByte other) ∧
    t.pc.toNat = (s.pc.toNat + 3) % 65536 ∧ t.a = s.a ∧ t.p = s.p ∧ SameInert s t ∧ t.run = s.run

/-- ADC #imm: the sum with the carry-in modulo 256, zero and negative from the sum; carry and overflow
keep their values, even when the true sum exceeds 255 (43_arithmetic_compare.md R120). -/
def Obligations.AdcAddsWithCarryIn : Prop :=
  (∀ cfg : Config, ∀ imm, encode cfg (.adcImm imm) = [cfg.opc .adcImm, imm]) ∧
  (∀ s : State, opcodeOf standardConfig s.fetchOpcode = some .adcImm →
    fetchInstr standardConfig s = .adcImm (s.readByte (s.pc + 1))) ∧
  ∀ (imm : Byte) (s : State), ∃ t, exec (.adcImm imm) s = .next t ∧
    t.a.toNat = (s.a.toNat + imm.toNat + (if s.flag standardConfig .carry then 1 else 0)) % 256 ∧
    t.flag standardConfig .zero = decide (t.a.toNat = 0) ∧
    t.flag standardConfig .negative = decide (0x80 ≤ t.a.toNat) ∧
    SameFlagsBut [.zero, .negative] s t ∧ t.pc.toNat = (s.pc.toNat + 2) % 65536 ∧
    SameInert s t ∧ SameMemory s t ∧ t.out = s.out ∧ t.run = s.run

/-- CMP #imm: zero and carry from the unsigned comparison, the negative flag and the accumulator
unchanged; and CMP alone can set the carry (43_arithmetic_compare.md R121). -/
def Obligations.CmpComparesUnsigned : Prop :=
  (∀ cfg : Config, ∀ imm, encode cfg (.cmpImm imm) = [cfg.opc .cmpImm, imm]) ∧
  (∀ s : State, opcodeOf standardConfig s.fetchOpcode = some .cmpImm →
    fetchInstr standardConfig s = .cmpImm (s.readByte (s.pc + 1))) ∧
  (∀ (imm : Byte) (s : State), ∃ t, exec (.cmpImm imm) s = .next t ∧
    (s.a.toNat = imm.toNat → t.flag standardConfig .zero = true ∧ t.flag standardConfig .carry = true) ∧
    (s.a.toNat < imm.toNat → t.flag standardConfig .zero = false ∧ t.flag standardConfig .carry = false) ∧
    (imm.toNat < s.a.toNat → t.flag standardConfig .zero = false ∧ t.flag standardConfig .carry = true) ∧
    SameFlagsBut [.zero, .carry] s t ∧ t.pc.toNat = (s.pc.toNat + 2) % 65536 ∧ t.a = s.a ∧
    SameInert s t ∧ SameMemory s t ∧ t.out = s.out ∧ t.run = s.run) ∧
  ∀ (i : Instr) (s t : State), exec i s = .next t → s.flag standardConfig .carry = false →
    t.flag standardConfig .carry = true → ∃ imm, i = .cmpImm imm

/-- BCC rel: with the carry clear to the next instruction's address plus the signed offset, else to the
next instruction, both modulo 65536; nothing else changes (44_branch.md R130). -/
def Obligations.BccBranchesOnCarryClear : Prop :=
  (∀ cfg : Config, ∀ rel, encode cfg (.bccRel rel) = [cfg.opc .bcc, rel]) ∧
  (∀ s : State, opcodeOf standardConfig s.fetchOpcode = some .bcc →
    fetchInstr standardConfig s = .bccRel (s.readByte (s.pc + 1))) ∧
  ∀ (rel : Byte) (s : State), ∃ t, exec (.bccRel rel) s = .next t ∧
    (s.flag standardConfig .carry = false →
      (t.pc.toNat : Int) = ((s.pc.toNat : Int) + 2 + rel.toInt) % 65536) ∧
    (s.flag standardConfig .carry = true → t.pc.toNat = (s.pc.toNat + 2) % 65536) ∧
    t.a = s.a ∧ t.p = s.p ∧ SameInert s t ∧ SameMemory s t ∧ t.out = s.out ∧ t.run = s.run

/-- An unrecognized opcode takes IllegalOpcode: the run status records the byte and the PC, nothing
else changes (60_exceptions.md R140). The address and the unchanged PC are the spec's decision D11
(log entry 7), the status its decision D2 (log entry 8). -/
def Obligations.UnrecognizedOpcodeTakesTheFault : Prop :=
  ∀ (op : Byte) (s : State), ∃ t, exec (.unrecognized op) s = .next t ∧ t.run = .fault op s.pc ∧
    t.pc = s.pc ∧ t.a = s.a ∧ t.p = s.p ∧ SameInert s t ∧ SameMemory s t ∧ t.out = s.out

/-- The fault is precise and final: apart from the status, the state is the one before the offending
step, and the next step stops with the recorded byte and address (60_exceptions.md R141, R146, R148;
decisions D2 and D11, log entries 7 and 8). -/
def Obligations.FaultIsPreciseAndFinal : Prop :=
  ∀ s : State, s.run = .running → opcodeOf standardConfig s.fetchOpcode = none →
    ∃ t, step s = .next t ∧ t.run = .fault s.fetchOpcode s.pc ∧ t.setRun .running = s ∧
      step t = .fault (.illegalOpcode s.fetchOpcode s.pc)

/-- A halt leaves the state as it was, apart from the status, and is final (41_implied.md R100,
60_exceptions.md R156; decisions D2 and D10, log entries 6 and 8). -/
def Obligations.HaltIsFinal : Prop :=
  ∀ s : State, s.run = .running → opcodeOf standardConfig s.fetchOpcode = some .hlt →
    ∃ t, step s = .next t ∧ t.run = .halted ∧ t.setRun .running = s ∧ step t = .fault .halted

/-- BCC is the only control transfer: every other recognised instruction but HLT falls through to the
next one, an instruction length further on, wrapping (10_state.md R26, 44_branch.md R131). -/
def Obligations.OnlyBccTransfersControl : Prop :=
  ∀ (i : Instr) (s t : State), exec i s = .next t →
    match i.opcode? with
    | some .bcc => t.pc = s.pc + 2 ∨ ∃ rel, i = .bccRel rel ∧ t.pc = branchTarget s.pc rel
    | some .hlt | none => t.pc = s.pc
    | some _ => t.pc.toNat = (s.pc.toNat + i.length) % 65536

/-- A branch to itself with the carry clear is an endless run: no number of steps changes anything
(40_step_cycle.md R94, 44_branch.md R130). -/
def Obligations.BranchToItselfNeverEnds : Prop :=
  ∀ s : State, s.run = .running → s.readByte s.pc = standardConfig.opc .bcc →
    s.readByte (s.pc + 1) = 0xFE → s.flag standardConfig .carry = false →
    ∀ k, runFor standardConfig k s = s

/-! ### Flags -/

/-- The flags an instruction writes are exactly those of the table, and a flag is read only by ADC and
BCC, which read the carry (10_state.md R29): a flag outside the table's list keeps its value; the new
value of one inside it depends on no bit of the old status byte, but for ADC, where it depends on the
carry alone; everything outside the status byte is the same whatever that byte held, for an instruction
other than ADC and BCC, and the same whenever the carry was, for those two. -/
def Obligations.FlagTableIsExact : Prop :=
  ∀ (cfg : Config), cfg.Legal → ∀ (i : Instr) (s : State),
    (∀ f, f ∉ flagsWritten i → (effect cfg i s).flag cfg f = s.flag cfg f) ∧
    (∀ f, f ∈ flagsWritten i → ∀ p,
      ((∃ imm, i = .adcImm imm) → readFlag cfg .carry p = s.flag cfg .carry) →
      (effect cfg i (s.setP p)).flag cfg f = (effect cfg i s).flag cfg f) ∧
    ((∀ imm, i ≠ .adcImm imm) → (∀ rel, i ≠ .bccRel rel) →
      ∀ p, (effect cfg i (s.setP p)).setP 0 = (effect cfg i s).setP 0) ∧
    ∀ p, readFlag cfg .carry p = s.flag cfg .carry →
      (effect cfg i (s.setP p)).setP 0 = (effect cfg i s).setP 0

/-- SetZN: zero iff the value is 0, negative iff it is 0x80 or more, both written on every use and
nothing else; LDA and ADC use it, CMP does not write the negative flag (10_state.md R31). -/
def Obligations.SetZNWritesZeroAndNegative : Prop :=
  ∀ (cfg : Config), cfg.Legal → ∀ (s : State) (v : Byte),
    (s.setZN cfg v).flag cfg .zero = decide (v.toNat = 0) ∧
    (s.setZN cfg v).flag cfg .negative = decide (0x80 ≤ v.toNat) ∧
    (∀ f, f ≠ .zero → f ≠ .negative → (s.setZN cfg v).flag cfg f = s.flag cfg f) ∧
    (s.setZN cfg v).setP s.p = s ∧
    (effect cfg (.ldaImm v) s).p = (s.setZN cfg v).p ∧
    (effect cfg (.adcImm v) s).p = (s.setZN cfg (effect cfg (.adcImm v) s).a).p ∧
    (effect cfg (.cmpImm v) s).flag cfg .negative = s.flag cfg .negative

/-- Each flag is set and cleared independently of the others, through any admissible layout; the
carry is read as the integer 1 or 0 (10_state.md R28). -/
def Obligations.FlagsAreIndependent : Prop :=
  ∀ (cfg : Config), cfg.Legal → ∀ (s : State) (f : Flag) (b : Bool),
    (s.assign cfg f b).flag cfg f = b ∧
    (∀ g, g ≠ f → (s.assign cfg f b).flag cfg g = s.flag cfg g) ∧
    (s.assign cfg f b).setP s.p = s ∧
    ((s.setCarry cfg).getCarry cfg = 1 ∧ (s.clearCarry cfg).getCarry cfg = 0)

/-- The five inert flags hold their reset value for the whole run, whatever the image, the layout and
the reset value (10_state.md R30). -/
def Obligations.InertFlagsKeepTheirResetValue : Prop :=
  ∀ (cfg : Config), cfg.Legal → ∀ (image : List Byte) (s : State), boot cfg image = .next s →
    ∀ (k : Nat) (f : Flag), f ∈ inertFlags → (runFor cfg k s).flag cfg f = readFlag cfg f cfg.pReset

/-- The bit layout of `P` changes the outcome of no program: runs under two layouts from states with the
same named flags stay the same in everything but the packed byte, and in every named flag
(10_state.md R32). -/
def Obligations.FlagLayoutChangesNoRun : Prop :=
  ∀ (cfg : Config) (layout : Flag → Fin 8), cfg.Legal → Function.Injective layout →
    ∀ s₁ s₂ : State, SameUpToLayout cfg { cfg with flagBit := layout } s₁ s₂ → ∀ k,
      SameUpToLayout cfg { cfg with flagBit := layout } (runFor cfg k s₁)
        (runFor { cfg with flagBit := layout } k s₂)

/-- Of the status register only the carry can influence a run: two states that differ in other flags
alone run the same, in memory, registers, output and status (10_state.md R29, R37). -/
def Obligations.OnlyTheCarryInfluencesARun : Prop :=
  ∀ (cfg : Config), cfg.Legal → ∀ s₁ s₂ : State, SameUpToOtherFlags cfg s₁ s₂ → ∀ k,
    SameUpToOtherFlags cfg (runFor cfg k s₁) (runFor cfg k s₂)

/-! ### Memory and the port -/

/-- The round-trip laws (20_memory.md R49): (a) bytes, (b) words, (c) at the port the read gives what
was there before the write, by the spec's decision D9 (log entry 5), (d) no other address changes. -/
def Obligations.MemoryRoundTrips : Prop :=
  ∀ (cfg : Config) (s : State) (addr : Word),
    (∀ v, addr ≠ ioPort → (s.writeByte cfg addr v).readByte addr = v) ∧
    (∀ w, addr ≠ ioPort → addr + 1 ≠ ioPort → (s.writeWord cfg addr w).readWord addr = w) ∧
    (∀ v, cfg.portStores = false → (s.writeByte cfg ioPort v).readByte ioPort = s.readByte ioPort) ∧
    ∀ v other, other ≠ addr → (s.writeByte cfg addr v).readByte other = s.readByte other

/-- A word read is little-endian, the high byte's address wrapping by itself (20_memory.md R46). -/
def Obligations.WordReadIsLittleEndian : Prop :=
  (∀ (s : State) (addr : Word), (s.readWord addr).toNat =
    256 * (s.readByte (addr + 1)).toNat + (s.readByte addr).toNat) ∧
  ∀ s : State, (s.readWord 0xFFFF).toNat = 256 * (s.readByte 0x0000).toNat + (s.readByte 0xFFFF).toNat

/-- A word write is two byte writes, low byte first, each with the port decode (20_memory.md R47); that
the port's byte is not stored is the spec's decision D9 (log entry 5). -/
def Obligations.WordWriteDecodesEachByte : Prop :=
  ∀ (cfg : Config) (s : State) (addr w : Word), cfg.portStores = false →
    (s.writeWord cfg addr w).out = s.out ++ (if addr = ioPort then [loByte w] else [])
      ++ (if addr + 1 = ioPort then [hiByte w] else []) ∧
    ∀ other, (s.writeWord cfg addr w).readByte other =
      if other = ioPort then s.readByte other
      else if other = addr then loByte w
      else if other = addr + 1 then hiByte w
      else s.readByte other

/-- Writing the same byte twice is writing it once, except at the port, where it is appended to the
output twice (20_memory.md R54). -/
def Obligations.WritesAreIdempotentButAtThePort : Prop :=
  ∀ (cfg : Config) (s : State) (v : Byte),
    (∀ addr, addr ≠ ioPort → (s.writeByte cfg addr v).writeByte cfg addr v = s.writeByte cfg addr v) ∧
    ((s.writeByte cfg ioPort v).writeByte cfg ioPort v).out = s.out ++ [v, v]

/-- Memories in canonical form that read alike at every address are the same data
(20_memory.md R40: one byte per address; log entry 14). -/
def Obligations.CanonicalMemoriesAreEqualWhenTheyReadAlike : Prop :=
  ∀ m₁ m₂ : Memory, m₁.wf → m₂.wf → (∀ addr : Word, m₁.read addr.toNat = m₂.read addr.toNat) → m₁ = m₂

/-- Only STA changes memory, in one byte, not at the port, and to the accumulator's value
(20_memory.md R52, R66; the port by decision D9, log entry 5). -/
def Obligations.OnlyStaChangesMemory : Prop :=
  ∀ (s t : State) (addr : Word), step s = .next t → t.readByte addr ≠ s.readByte addr →
    fetchInstr standardConfig s = .staAbs addr ∧ addr ≠ ioPort ∧ t.readByte addr = s.a

/-- A store into the instruction stream is seen by the very next fetch, wherever in the next instruction
the stored byte falls: as its opcode, as its operand byte or low address byte, or as the high byte of its
absolute operand (20_memory.md R63, 70_reset_and_hazards.md R170). -/
def Obligations.StoreIsSeenByTheNextFetch : Prop :=
  ∀ (s t : State) (addr : Word), step s = .next t → fetchInstr standardConfig s = .staAbs addr →
    addr ≠ ioPort →
    (t.pc = addr → fetchInstr standardConfig t =
      match opcodeOf standardConfig s.a with
      | none => .unrecognized s.a
      | some o => assemble o (t.readByte (t.pc + 1)) (t.readByte (t.pc + 2))) ∧
    (t.pc + 1 = addr → ∀ o, opcodeOf standardConfig t.fetchOpcode = some o →
      fetchInstr standardConfig t = assemble o s.a (t.readByte (t.pc + 2))) ∧
    (t.pc + 2 = addr → opcodeOf standardConfig t.fetchOpcode = some .staAbs →
      fetchInstr standardConfig t = .staAbs (mkWord s.a (t.readByte (t.pc + 1))))

/-- The stored byte at the port is changed by no run (20_memory.md R45; decision D9, log entry 5). -/
def Obligations.PortByteNeverChanges : Prop :=
  ∀ (cfg : Config), cfg.portStores = false → ∀ (k : Nat) (s : State),
    (runFor cfg k s).readByte ioPort = s.readByte ioPort

/-- The output only grows, by the accumulator exactly when the step is a store to the port, so bytes
appear in program order (10_state.md R34, 20_memory.md R44, R61; decision D16, log entry 13). -/
def Obligations.OutputOnlyGrows : Prop :=
  (∀ (cfg : Config) (s t : State), stepWith cfg s = some t →
    t.out = s.out ++ (if fetchInstr cfg s = .staAbs ioPort then [s.a] else [])) ∧
  ∀ (cfg : Config) (k : Nat) (s : State), ∃ bytes : List Byte,
    (runFor cfg k s).out = s.out ++ bytes ∧ bytes.length ≤ k

/-- Whether a port write also stores matters only to a step that fetches from the port address: for any
other, both machines do the same but for the byte stored there (decision D9, log entry 5). An unrecognized
opcode fetches the one byte read (20_memory.md R52; log entry 20). -/
def Obligations.PortStoringMattersOnlyToFetchesFromThePort : Prop :=
  ∀ (cfg : Config) (stores : Bool) (s₁ s₂ : State), SameUpToPortByte s₁ s₂ → FetchAvoidsPort cfg s₁ →
    match stepWith cfg s₁, stepWith { cfg with portStores := stores } s₂ with
    | some t₁, some t₂ => SameUpToPortByte t₁ t₂
    | none, none => True
    | _, _ => False

/-! ### Invariants over every step -/

/-- Every step keeps the invariant: canonical memory, and a run status that memory explains
(20_memory.md R40, 60_exceptions.md R141; decisions D2, D10 and D11, log entries 6 to 8 and 14). -/
def Obligations.StepKeepsTheInvariant : Prop :=
  ∀ s t : State, Inv s → step s = .next t → Inv t

/-- The state after reset meets the invariant. -/
def Obligations.ResetMeetsTheInvariant : Prop := Inv State.reset

/-- Whatever image is loaded, the state it boots to meets the invariant
(70_reset_and_hazards.md R160 to R164). -/
def Obligations.BootMeetsTheInvariant : Prop :=
  ∀ (image : List Byte) (s : State), boot standardConfig image = .next s → Inv s

/-- The stack pointer holds its reset value for the whole run, and so do the two index registers
(10_state.md R23; R22 for the index registers): from boot they stay zero, and from any state as they were. -/
def Obligations.InertRegistersKeepTheirResetValue : Prop :=
  (∀ (cfg : Config) (image : List Byte) (s : State), boot cfg image = .next s → ∀ k,
    (runFor cfg k s).sp = 0 ∧ (runFor cfg k s).x = 0 ∧ (runFor cfg k s).y = 0) ∧
  ∀ (cfg : Config) (k : Nat) (s : State), SameInert s (runFor cfg k s)

/-! ### Reset -/

/-- After reset the accumulator, the index registers and the stack pointer are zero and the PC, loaded
from the forced vector, is zero, after every reset of this hardware (10_state.md R36). -/
def Obligations.ResetZeroesTheRegisters : Prop :=
  ∀ (cfg : Config) (image : List Byte) (s : State), boot cfg image = .next s →
    s.a = 0 ∧ s.x = 0 ∧ s.y = 0 ∧ s.sp = 0 ∧ s.pc = 0

/-- The complete reset state: A, X, Y, SP and the PC are zero, memory is the image with the vector
cleared and zero above it, the status byte is `P_RESET`, the core runs, nothing has been emitted, even by an image byte at the port; an image
that does not fit is refused (70_reset_and_hazards.md R161 to R166; decisions D8 and D12, log entries 4
and 10). -/
def Obligations.BootLaysOutTheImage : Prop :=
  ∀ (cfg : Config) (image : List Byte),
    (image.length ≤ 65536 → ∃ s, boot cfg image = .next s ∧ s.pc = 0 ∧ s.a = 0 ∧ s.x = 0 ∧
      s.y = 0 ∧ s.sp = 0 ∧ s.p = cfg.pReset ∧ s.run = .running ∧ s.out = [] ∧ ∀ addr : Word, s.readByte addr =
        if addr = 0xFFFC ∨ addr = 0xFFFD then 0 else image.getD addr.toNat 0) ∧
    (65536 < image.length → boot cfg image = .refused (.imageTooLong image.length))

/-- The fixed state after reset is what the reset sequence gives with nothing placed
(70_reset_and_hazards.md R166; the status byte by decision D8, log entry 4). -/
def Obligations.ResetIsBootWithNoImage : Prop := boot standardConfig [] = .next State.reset

/-! ### Notation and trace -/

/-- The assembler's offset byte is exactly the one whose taken branch lands on the target
(30_encoding.md R83; decision D5 and, for a branch across the ends of memory, log entry 19). -/
def Obligations.AssemblerOffsetIsTheBranchOffset : Prop :=
  ∀ (pc target : Word) (rel : Byte), relFor pc target = some rel ↔ branchTarget pc rel = target

/-- The trace has one record for each step that executes an instruction, as long as the core is running
(60_exceptions.md R154), whatever the two open constants are (decision D15, log entry 12). -/
def Obligations.TraceHasOneRecordPerStep : Prop :=
  ∀ (cfg : Config) (k : Nat) (s : State), (runFor cfg k s).run = .running →
    (traceFor cfg k s).length = k
end

