-- ==== Sys2Proof/Laws/Decode.lean ====
section
/-! SUPPORT. The opcode map and the fetch: what `opcodeOf` answers, once for all later proofs. -/

namespace Sys2Proof

theorem Opcode.mem_all (o : Opcode) : o ∈ Opcode.all := by cases o <;> decide

/-- An answer of the opcode map is an operation with that byte. -/
theorem opc_of_opcodeOf {cfg : Config} {op : Byte} {o : Opcode} (h : opcodeOf cfg op = some o) :
    cfg.opc o = op := by
  simpa using List.find?_some h

/-- The opcode map finds every operation by its byte. -/
theorem opcodeOf_opc {cfg : Config} (hcfg : cfg.Legal) (o : Opcode) : opcodeOf cfg (cfg.opc o) = some o := by
  cases h : opcodeOf cfg (cfg.opc o) with
  | none => exact absurd (List.find?_eq_none.1 h o (Opcode.mem_all o)) (by simp)
  | some o' => exact congrArg some (hcfg.opc_injective (opc_of_opcodeOf h))

/-- The catch-all answers exactly for the bytes that are no value of `OPC` (R79). -/
theorem opcodeOf_eq_none {cfg : Config} {op : Byte} :
    opcodeOf cfg op = none ↔ ∀ o, cfg.opc o ≠ op := by
  constructor
  · exact fun h o => by simpa using List.find?_eq_none.1 h o (Opcode.mem_all o)
  · exact fun h => List.find?_eq_none.2 fun o _ => by simpa using h o

theorem opcode?_assemble (o : Opcode) (b1 b2 : Byte) : (assemble o b1 b2).opcode? = some o := by
  cases o <;> rfl

theorem mkWord_bytes (w : Word) : mkWord (hiByte w) (loByte w) = w := by
  apply BitVec.eq_of_getLsbD_eq
  intro i hi
  simp only [mkWord, hiByte, loByte, BitVec.getLsbD_append, BitVec.getLsbD_extractLsb']
  by_cases h : i < 8
  · simp [h]
  · have : 8 + (i - 8) = i := by omega
    simp [h, this]; intro; omega

theorem loByte_mkWord (hi lo : Byte) : loByte (mkWord hi lo) = lo := by
  apply BitVec.eq_of_getLsbD_eq
  intro i h
  simp only [mkWord, loByte, BitVec.getLsbD_extractLsb', BitVec.getLsbD_append]
  simp [h]

theorem hiByte_mkWord (hi lo : Byte) : hiByte (mkWord hi lo) = hi := by
  apply BitVec.eq_of_getLsbD_eq
  intro i h
  simp only [mkWord, hiByte, BitVec.getLsbD_extractLsb', BitVec.getLsbD_append]
  simp [h]

/-- A word as a number: the high byte counts 256 (00_scope.md R6). -/
theorem toNat_mkWord (hi lo : Byte) : (mkWord hi lo).toNat = hi.toNat * 256 + lo.toNat := by
  rw [mkWord, BitVec.toNat_append, ← Nat.shiftLeft_add_eq_or_of_lt lo.isLt, Nat.shiftLeft_eq]

namespace Machine

/-- The three cases of the fetch, by what the opcode byte is. -/
theorem fetchInstr_unrecognized {cfg : Config} {s : State} (h : opcodeOf cfg s.fetchOpcode = none) :
    fetchInstr cfg s = .unrecognized s.fetchOpcode := by simp [fetchInstr, h]

theorem fetchInstr_recognized {cfg : Config} {s : State} {o : Opcode}
    (h : opcodeOf cfg s.fetchOpcode = some o) :
    fetchInstr cfg s = assemble o s.operandByte (s.readByte (s.pc + 2)) := by simp [fetchInstr, h]

/-- The operation fetched is the one of the opcode byte. -/
theorem opcode?_fetchInstr (cfg : Config) (s : State) :
    (fetchInstr cfg s).opcode? = opcodeOf cfg s.fetchOpcode := by
  cases h : opcodeOf cfg s.fetchOpcode with
  | none => rw [fetchInstr_unrecognized h]; rfl
  | some o => rw [fetchInstr_recognized h, opcode?_assemble]

/-- The absolute operand is the word after the opcode byte (30_encoding.md R76). -/
theorem absolute_operand_eq_readWord (s : State) :
    mkWord (s.readByte (s.pc + 2)) s.operandByte = s.readWord (s.pc + 1) := by
  rw [State.readWord, State.operandByte, BitVec.add_assoc]; rfl

/-- `sext_16` by its defining formula (00_scope.md R7). -/
theorem sext16_eq (b : Byte) : sext16 b = if b.toNat ≤ 0x7F then zext16 b else 0xFF00 + zext16 b := by
  revert b; decide

theorem toNat_zext16 (b : Byte) : (zext16 b).toNat = b.toNat := by
  have := b.isLt
  simp [zext16]; omega

theorem toInt_sext16 (b : Byte) : (sext16 b).toInt = b.toInt := by
  rw [sext16, BitVec.toInt_signExtend_of_le (by omega)]

end Machine

end Sys2Proof
end

