-- ==== Sys2Proof/Laws/State.lean ====
section
/-! SUPPORT. What each register update of Machine/Ops.lean leaves in each field, so that no later proof
unfolds a record update. -/

namespace Sys2Proof.Machine

theorem State.ext {s t : State} (mem : s.mem = t.mem) (pc : s.pc = t.pc) (a : s.a = t.a) (x : s.x = t.x)
    (y : s.y = t.y) (sp : s.sp = t.sp) (p : s.p = t.p) (run : s.run = t.run) (out : s.out = t.out) : s = t := by
  cases s; cases t; simp_all

section
variable (s : State) (v : Word)
@[simp] theorem State.setPc_mem : (s.setPc v).mem = s.mem := rfl
@[simp] theorem State.setPc_pc : (s.setPc v).pc = v := rfl
@[simp] theorem State.setPc_a : (s.setPc v).a = s.a := rfl
@[simp] theorem State.setPc_x : (s.setPc v).x = s.x := rfl
@[simp] theorem State.setPc_y : (s.setPc v).y = s.y := rfl
@[simp] theorem State.setPc_sp : (s.setPc v).sp = s.sp := rfl
@[simp] theorem State.setPc_p : (s.setPc v).p = s.p := rfl
@[simp] theorem State.setPc_run : (s.setPc v).run = s.run := rfl
@[simp] theorem State.setPc_out : (s.setPc v).out = s.out := rfl
end

section
variable (s : State) (v : Byte)
@[simp] theorem State.setA_mem : (s.setA v).mem = s.mem := rfl
@[simp] theorem State.setA_pc : (s.setA v).pc = s.pc := rfl
@[simp] theorem State.setA_a : (s.setA v).a = v := rfl
@[simp] theorem State.setA_x : (s.setA v).x = s.x := rfl
@[simp] theorem State.setA_y : (s.setA v).y = s.y := rfl
@[simp] theorem State.setA_sp : (s.setA v).sp = s.sp := rfl
@[simp] theorem State.setA_p : (s.setA v).p = s.p := rfl
@[simp] theorem State.setA_run : (s.setA v).run = s.run := rfl
@[simp] theorem State.setA_out : (s.setA v).out = s.out := rfl
end

section
variable (s : State) (v : Byte)
@[simp] theorem State.setP_mem : (s.setP v).mem = s.mem := rfl
@[simp] theorem State.setP_pc : (s.setP v).pc = s.pc := rfl
@[simp] theorem State.setP_a : (s.setP v).a = s.a := rfl
@[simp] theorem State.setP_x : (s.setP v).x = s.x := rfl
@[simp] theorem State.setP_y : (s.setP v).y = s.y := rfl
@[simp] theorem State.setP_sp : (s.setP v).sp = s.sp := rfl
@[simp] theorem State.setP_p : (s.setP v).p = v := rfl
@[simp] theorem State.setP_run : (s.setP v).run = s.run := rfl
@[simp] theorem State.setP_out : (s.setP v).out = s.out := rfl
end

section
variable (s : State) (r : RunStatus)
@[simp] theorem State.setRun_mem : (s.setRun r).mem = s.mem := rfl
@[simp] theorem State.setRun_pc : (s.setRun r).pc = s.pc := rfl
@[simp] theorem State.setRun_a : (s.setRun r).a = s.a := rfl
@[simp] theorem State.setRun_x : (s.setRun r).x = s.x := rfl
@[simp] theorem State.setRun_y : (s.setRun r).y = s.y := rfl
@[simp] theorem State.setRun_sp : (s.setRun r).sp = s.sp := rfl
@[simp] theorem State.setRun_p : (s.setRun r).p = s.p := rfl
@[simp] theorem State.setRun_run : (s.setRun r).run = r := rfl
@[simp] theorem State.setRun_out : (s.setRun r).out = s.out := rfl
end

section
variable (s : State) (m : Memory)
@[simp] theorem State.setMem_mem : (s.setMem m).mem = m := rfl
@[simp] theorem State.setMem_pc : (s.setMem m).pc = s.pc := rfl
@[simp] theorem State.setMem_a : (s.setMem m).a = s.a := rfl
@[simp] theorem State.setMem_x : (s.setMem m).x = s.x := rfl
@[simp] theorem State.setMem_y : (s.setMem m).y = s.y := rfl
@[simp] theorem State.setMem_sp : (s.setMem m).sp = s.sp := rfl
@[simp] theorem State.setMem_p : (s.setMem m).p = s.p := rfl
@[simp] theorem State.setMem_run : (s.setMem m).run = s.run := rfl
@[simp] theorem State.setMem_out : (s.setMem m).out = s.out := rfl
end

section
variable (s : State) (b : Byte)
@[simp] theorem State.emit_mem : (s.emit b).mem = s.mem := rfl
@[simp] theorem State.emit_pc : (s.emit b).pc = s.pc := rfl
@[simp] theorem State.emit_a : (s.emit b).a = s.a := rfl
@[simp] theorem State.emit_x : (s.emit b).x = s.x := rfl
@[simp] theorem State.emit_y : (s.emit b).y = s.y := rfl
@[simp] theorem State.emit_sp : (s.emit b).sp = s.sp := rfl
@[simp] theorem State.emit_p : (s.emit b).p = s.p := rfl
@[simp] theorem State.emit_run : (s.emit b).run = s.run := rfl
@[simp] theorem State.emit_out : (s.emit b).out = s.out ++ [b] := rfl
end

section
variable (s : State) (n : Nat)
@[simp] theorem State.advance_mem : (s.advance n).mem = s.mem := rfl
@[simp] theorem State.advance_pc : (s.advance n).pc = s.pc + BitVec.ofNat 16 n := rfl
@[simp] theorem State.advance_a : (s.advance n).a = s.a := rfl
@[simp] theorem State.advance_x : (s.advance n).x = s.x := rfl
@[simp] theorem State.advance_y : (s.advance n).y = s.y := rfl
@[simp] theorem State.advance_sp : (s.advance n).sp = s.sp := rfl
@[simp] theorem State.advance_p : (s.advance n).p = s.p := rfl
@[simp] theorem State.advance_run : (s.advance n).run = s.run := rfl
@[simp] theorem State.advance_out : (s.advance n).out = s.out := rfl
end

/-! Reads look at the memory alone. -/

section
variable (s : State) (addr : Word)
@[simp] theorem State.readByte_setPc (v : Word) : (s.setPc v).readByte addr = s.readByte addr := rfl
@[simp] theorem State.readByte_setA (v : Byte) : (s.setA v).readByte addr = s.readByte addr := rfl
@[simp] theorem State.readByte_setP (v : Byte) : (s.setP v).readByte addr = s.readByte addr := rfl
@[simp] theorem State.readByte_setRun (r : RunStatus) : (s.setRun r).readByte addr = s.readByte addr := rfl
@[simp] theorem State.readByte_setMem (m : Memory) : (s.setMem m).readByte addr = m.read addr.toNat := rfl
@[simp] theorem State.readByte_emit (b : Byte) : (s.emit b).readByte addr = s.readByte addr := rfl
@[simp] theorem State.readByte_advance (n : Nat) : (s.advance n).readByte addr = s.readByte addr := rfl
end

end Sys2Proof.Machine
end

