-- ==== Sys2Proof/Laws/Flags.lean ====
section
/-! SUPPORT. The status register: a flag reads as it was last assigned, assigning one leaves the others
alone, and each flag computation changes the packed byte only, in the flags it names. -/

namespace Sys2Proof.Machine

/-- All that assigning a flag does to the flags. -/
theorem readFlag_assignFlag {cfg : Config} (hcfg : cfg.Legal) (f f' : Flag) (b : Bool) (p : Byte) :
    readFlag cfg f' (assignFlag cfg f b p) = if f' = f then b else readFlag cfg f' p := by
  have hne : f' ≠ f → (cfg.flagBit f).val ≠ (cfg.flagBit f').val := fun h e =>
    h (hcfg.flagBit_injective (Fin.ext e.symm))
  have hlt := (cfg.flagBit f').isLt
  unfold readFlag assignFlag
  by_cases h : f' = f
  · subst h
    cases b <;> simp
  · have hne' := (hne h).symm
    cases b <;> simp [h, hne']

theorem State.flag_assign {cfg : Config} (hcfg : cfg.Legal) (s : State) (f f' : Flag) (b : Bool) :
    (s.assign cfg f b).flag cfg f' = if f' = f then b else s.flag cfg f' :=
  readFlag_assignFlag hcfg f f' b s.p

section
variable (cfg : Config) (s : State) (f : Flag)

theorem State.flag_setPc (v : Word) : (s.setPc v).flag cfg f = s.flag cfg f := rfl
theorem State.flag_setA (v : Byte) : (s.setA v).flag cfg f = s.flag cfg f := rfl
theorem State.flag_setRun (r : RunStatus) : (s.setRun r).flag cfg f = s.flag cfg f := rfl
theorem State.flag_advance (n : Nat) : (s.advance n).flag cfg f = s.flag cfg f := rfl

/-- The carry as an integer is the carry flag. -/
theorem State.getCarry_eq_zero : s.getCarry cfg = 0 ↔ s.flag cfg .carry = false := by
  cases h : s.flag cfg .carry <;> simp [State.getCarry, h]

end

/-- A flag computation changes the packed byte and nothing else. -/
theorem State.setZN_rest (cfg : Config) (s : State) (v : Byte) : ∃ p, s.setZN cfg v = s.setP p := by
  unfold State.setZN
  split <;> split <;> exact ⟨_, rfl⟩

theorem State.compareFlags_rest (cfg : Config) (s : State) (v : Byte) :
    ∃ p, s.compareFlags cfg v = s.setP p := by
  unfold State.compareFlags
  split
  · exact ⟨_, rfl⟩
  · split <;> exact ⟨_, rfl⟩

section
variable (cfg : Config) (s : State) (f : Flag) (b : Bool) (v : Byte)
@[simp] theorem State.assign_mem : (s.assign cfg f b).mem = s.mem := rfl
@[simp] theorem State.assign_pc : (s.assign cfg f b).pc = s.pc := rfl
@[simp] theorem State.assign_a : (s.assign cfg f b).a = s.a := rfl
@[simp] theorem State.assign_x : (s.assign cfg f b).x = s.x := rfl
@[simp] theorem State.assign_y : (s.assign cfg f b).y = s.y := rfl
@[simp] theorem State.assign_sp : (s.assign cfg f b).sp = s.sp := rfl
@[simp] theorem State.assign_run : (s.assign cfg f b).run = s.run := rfl
@[simp] theorem State.assign_out : (s.assign cfg f b).out = s.out := rfl
@[simp] theorem State.setZN_mem : (s.setZN cfg v).mem = s.mem := by
  obtain ⟨_, h⟩ := State.setZN_rest cfg s v; rw [h]; rfl
@[simp] theorem State.setZN_pc : (s.setZN cfg v).pc = s.pc := by
  obtain ⟨_, h⟩ := State.setZN_rest cfg s v; rw [h]; rfl
@[simp] theorem State.setZN_a : (s.setZN cfg v).a = s.a := by
  obtain ⟨_, h⟩ := State.setZN_rest cfg s v; rw [h]; rfl
@[simp] theorem State.setZN_x : (s.setZN cfg v).x = s.x := by
  obtain ⟨_, h⟩ := State.setZN_rest cfg s v; rw [h]; rfl
@[simp] theorem State.setZN_y : (s.setZN cfg v).y = s.y := by
  obtain ⟨_, h⟩ := State.setZN_rest cfg s v; rw [h]; rfl
@[simp] theorem State.setZN_sp : (s.setZN cfg v).sp = s.sp := by
  obtain ⟨_, h⟩ := State.setZN_rest cfg s v; rw [h]; rfl
@[simp] theorem State.setZN_run : (s.setZN cfg v).run = s.run := by
  obtain ⟨_, h⟩ := State.setZN_rest cfg s v; rw [h]; rfl
@[simp] theorem State.setZN_out : (s.setZN cfg v).out = s.out := by
  obtain ⟨_, h⟩ := State.setZN_rest cfg s v; rw [h]; rfl
@[simp] theorem State.compareFlags_mem : (s.compareFlags cfg v).mem = s.mem := by
  obtain ⟨_, h⟩ := State.compareFlags_rest cfg s v; rw [h]; rfl
@[simp] theorem State.compareFlags_pc : (s.compareFlags cfg v).pc = s.pc := by
  obtain ⟨_, h⟩ := State.compareFlags_rest cfg s v; rw [h]; rfl
@[simp] theorem State.compareFlags_a : (s.compareFlags cfg v).a = s.a := by
  obtain ⟨_, h⟩ := State.compareFlags_rest cfg s v; rw [h]; rfl
@[simp] theorem State.compareFlags_x : (s.compareFlags cfg v).x = s.x := by
  obtain ⟨_, h⟩ := State.compareFlags_rest cfg s v; rw [h]; rfl
@[simp] theorem State.compareFlags_y : (s.compareFlags cfg v).y = s.y := by
  obtain ⟨_, h⟩ := State.compareFlags_rest cfg s v; rw [h]; rfl
@[simp] theorem State.compareFlags_sp : (s.compareFlags cfg v).sp = s.sp := by
  obtain ⟨_, h⟩ := State.compareFlags_rest cfg s v; rw [h]; rfl
@[simp] theorem State.compareFlags_run : (s.compareFlags cfg v).run = s.run := by
  obtain ⟨_, h⟩ := State.compareFlags_rest cfg s v; rw [h]; rfl
@[simp] theorem State.compareFlags_out : (s.compareFlags cfg v).out = s.out := by
  obtain ⟨_, h⟩ := State.compareFlags_rest cfg s v; rw [h]; rfl

theorem State.readByte_assign (addr : Word) : (s.assign cfg f b).readByte addr = s.readByte addr := rfl
theorem State.readByte_setZN (addr : Word) : (s.setZN cfg v).readByte addr = s.readByte addr := by
  simp [State.readByte]
theorem State.readByte_compareFlags (addr : Word) :
    (s.compareFlags cfg v).readByte addr = s.readByte addr := by
  simp [State.readByte]
end

/-- All that `SetZN` does to the flags (10_state.md R31). -/
theorem State.flag_setZN {cfg : Config} (hcfg : cfg.Legal) (s : State) (v : Byte) (f : Flag) :
    (s.setZN cfg v).flag cfg f
      = match f with
        | .zero => decide (v = 0)
        | .negative => v.getLsbD 7
        | _ => s.flag cfg f := by
  unfold State.setZN State.setZero State.clearZero State.setNegative State.clearNegative
  by_cases hz : v = 0 <;> cases hn : v.getLsbD 7 <;> cases f <;> simp_all [State.flag_assign]

/-- All that a comparison does to the flags (43_arithmetic_compare.md R121). -/
theorem State.flag_compareFlags {cfg : Config} (hcfg : cfg.Legal) (s : State) (v : Byte) (f : Flag) :
    (s.compareFlags cfg v).flag cfg f
      = match f with
        | .zero => decide (s.a = v)
        | .carry => decide (v.toNat ≤ s.a.toNat)
        | _ => s.flag cfg f := by
  unfold State.compareFlags State.setZero State.clearZero State.setCarry State.clearCarry
  by_cases he : s.a = v
  · rw [if_pos he]
    cases f <;> simp [State.flag_assign hcfg, he]
  · by_cases hl : s.a.toNat < v.toNat
    · have : ¬ v.toNat ≤ s.a.toNat := by omega
      rw [if_neg he, if_pos hl]
      cases f <;> simp [State.flag_assign hcfg, he, hl]
    · have : v.toNat ≤ s.a.toNat := by omega
      rw [if_neg he, if_neg hl]
      cases f <;> simp [State.flag_assign hcfg, he, this]

/-- The default parameters are admissible (00_scope.md R5). -/
theorem standardConfig_legal : standardConfig.Legal where
  opc_injective a b h := by cases a <;> cases b <;> first | rfl | exact absurd h (by decide)
  flagBit_injective a b h := by cases a <;> cases b <;> first | rfl | exact absurd h (by decide)

end Sys2Proof.Machine
end

