-- ==== Sys2Proof/Laws/Memory.lean ====
section
/-! SUPPORT. The memory operations: a read after a write to the same address gives the value written,
a write leaves every other address alone, and every operation keeps the canonical form. The first two
hold for every list of cells, canonical or not. -/

namespace Sys2Proof.Machine

/-! ### Cells -/

@[simp] theorem Memory.read_nil (addr : Nat) : Memory.read [] addr = 0 := rfl

theorem Memory.read_cons (k : Nat) (b : Byte) (m : Memory) (addr : Nat) :
    Memory.read ((k, b) :: m) addr = if k = addr then b else Memory.read m addr := rfl

theorem Memory.read_eq_zero {m : Memory} {addr : Nat} (h : ∀ c ∈ m, c.1 ≠ addr) :
    Memory.read m addr = 0 := by
  induction m with
  | nil => rfl
  | cons c m ih =>
    obtain ⟨k, b⟩ := c
    rw [Memory.read_cons, if_neg (h (k, b) (by simp))]
    exact ih fun c hc => h c (by simp [hc])

theorem Memory.erase_cons (k : Nat) (b : Byte) (m : Memory) (addr : Nat) :
    Memory.erase ((k, b) :: m) addr
      = if k = addr then Memory.erase m addr else (k, b) :: Memory.erase m addr := by
  by_cases h : k = addr <;> simp [Memory.erase, h]

theorem Memory.mem_erase {m : Memory} {addr : Nat} {c : Host.Cell} :
    c ∈ m.erase addr ↔ c ∈ m ∧ c.1 ≠ addr := by
  simp [Memory.erase]

theorem Memory.mem_insert {m : Memory} {addr : Nat} {v : Byte} {c : Host.Cell} :
    c ∈ m.insert addr v ↔ c = (addr, v) ∨ c ∈ m := by
  induction m with
  | nil => simp [Memory.insert]
  | cons d m ih =>
    obtain ⟨k, b⟩ := d
    by_cases h : addr < k
    · simp [Memory.insert, h]
    · simp [Memory.insert, h, ih]; tauto

theorem Memory.read_erase (m : Memory) (addr addr' : Nat) :
    (m.erase addr).read addr' = if addr' = addr then 0 else m.read addr' := by
  induction m with
  | nil => simp [Memory.erase]
  | cons c m ih =>
    obtain ⟨k, b⟩ := c
    rw [Memory.erase_cons, Memory.read_cons]
    by_cases h : k = addr
    · subst h
      rw [if_pos rfl, ih]
      by_cases h' : addr' = k
      · simp [h']
      · simp [h', Ne.symm h']
    · rw [if_neg h, Memory.read_cons, ih]
      by_cases h' : k = addr'
      · subst h'; simp [h]
      · simp [h']

theorem Memory.read_insert {m : Memory} {addr : Nat} (v : Byte) (addr' : Nat) (h : ∀ c ∈ m, c.1 ≠ addr) :
    (m.insert addr v).read addr' = if addr' = addr then v else m.read addr' := by
  induction m with
  | nil => simp [Memory.insert, Memory.read_cons, eq_comm]
  | cons c m ih =>
    obtain ⟨k, b⟩ := c
    have hk : k ≠ addr := h (k, b) (by simp)
    by_cases hlt : addr < k
    · simp [Memory.insert, hlt, Memory.read_cons, eq_comm]
    · rw [Memory.insert, if_neg hlt, Memory.read_cons, Memory.read_cons,
        ih fun c hc => h c (by simp [hc])]
      by_cases h' : k = addr'
      · subst h'; simp [hk]
      · simp [h']

/-- All that a write does to what memory reads as. -/
theorem Memory.read_write (m : Memory) (addr : Nat) (v : Byte) (addr' : Nat) :
    (m.write addr v).read addr' = if addr' = addr then v else m.read addr' := by
  unfold Memory.write
  by_cases hv : v = 0
  · rw [if_pos hv, Memory.read_erase, hv]
  · rw [if_neg hv, Memory.read_insert v addr' fun c hc => (Memory.mem_erase.1 hc).2, Memory.read_erase]
    by_cases h : addr' = addr <;> simp [h]

/-! ### The canonical form -/

theorem Memory.erase_wf {m : Memory} (addr : Nat) (h : m.wf) : (m.erase addr).wf :=
  ⟨h.1.filter _, fun c hc => h.2 c (Memory.mem_erase.1 hc).1⟩

theorem Memory.insert_wf {m : Memory} {addr : Nat} {v : Byte} (h : m.wf) (hfree : ∀ c ∈ m, c.1 ≠ addr)
    (haddr : addr < memorySize) (hv : v ≠ 0) : (m.insert addr v).wf := by
  refine ⟨?_, fun c hc => ?_⟩
  · have hp := h.1
    clear h haddr hv
    induction m with
    | nil => simp [Memory.insert]
    | cons d m ih =>
      obtain ⟨k, b⟩ := d
      have hk : k ≠ addr := hfree (k, b) (by simp)
      rw [List.pairwise_cons] at hp
      by_cases hlt : addr < k
      · rw [Memory.insert, if_pos hlt, List.pairwise_cons, List.pairwise_cons]
        refine ⟨fun c hc => ?_, hp⟩
        rcases List.mem_cons.1 hc with rfl | hc
        · exact hlt
        · exact hlt.trans (hp.1 c hc)
      · rw [Memory.insert, if_neg hlt, List.pairwise_cons]
        refine ⟨fun c hc => ?_, ih (fun c hc => hfree c (by simp [hc])) hp.2⟩
        rcases Memory.mem_insert.1 hc with rfl | hc
        · exact lt_of_le_of_ne (not_lt.1 hlt) hk
        · exact hp.1 c hc
  · rcases Memory.mem_insert.1 hc with rfl | hc
    · exact ⟨haddr, hv⟩
    · exact h.2 c hc

/-- Every write inside the address space keeps the canonical form. -/
theorem Memory.write_wf {m : Memory} {addr : Nat} (v : Byte) (h : m.wf) (haddr : addr < memorySize) :
    (m.write addr v).wf := by
  unfold Memory.write
  split
  · exact Memory.erase_wf addr h
  · exact Memory.insert_wf (Memory.erase_wf addr h) (fun c hc => (Memory.mem_erase.1 hc).2) haddr ‹_›

theorem State.reset_mem_wf : State.reset.mem.wf := by simp [State.reset, Memory.wf]

/-! ### The accessors of the state -/

theorem Word.toNat_lt_memorySize (addr : Word) : addr.toNat < memorySize := addr.isLt

theorem State.poke_wf {s : State} (addr : Word) (v : Byte) (h : s.mem.wf) : (s.poke addr v).mem.wf :=
  Memory.write_wf v h (Word.toNat_lt_memorySize addr)

theorem State.pokeAll_wf {s : State} (addr : Word) (bytes : List Byte) (h : s.mem.wf) :
    (s.pokeAll addr bytes).mem.wf := by
  induction bytes generalizing s addr with
  | nil => exact h
  | cons b bs ih => exact ih (addr + 1) (State.poke_wf addr b h)

theorem State.writeByte_wf (cfg : Config) {s : State} (addr : Word) (v : Byte) (h : s.mem.wf) :
    (s.writeByte cfg addr v).mem.wf := by
  unfold State.writeByte
  split
  · split
    · exact State.poke_wf addr v h
    · exact h
  · exact State.poke_wf addr v h

theorem State.writeWord_wf (cfg : Config) {s : State} (addr : Word) (w : Word) (h : s.mem.wf) :
    (s.writeWord cfg addr w).mem.wf :=
  State.writeByte_wf cfg _ _ (State.writeByte_wf cfg _ _ h)

theorem State.readByte_poke (s : State) (addr : Word) (v : Byte) (addr' : Word) :
    (s.poke addr v).readByte addr' = if addr' = addr then v else s.readByte addr' := by
  rw [State.poke, State.readByte_setMem, Memory.read_write]
  simp only [BitVec.toNat_inj, State.readByte]

/-- A byte write changes memory and `OUT` at most. -/
theorem State.writeByte_rest (cfg : Config) (s : State) (addr : Word) (v : Byte) :
    ∃ m o, s.writeByte cfg addr v = { s with mem := m, out := o } := by
  unfold State.writeByte
  split
  · split <;> exact ⟨_, _, rfl⟩
  · exact ⟨_, _, rfl⟩

section
variable (cfg : Config) (s : State) (addr : Word) (v : Byte)
@[simp] theorem State.poke_pc : (s.poke addr v).pc = s.pc := rfl
@[simp] theorem State.poke_a : (s.poke addr v).a = s.a := rfl
@[simp] theorem State.poke_x : (s.poke addr v).x = s.x := rfl
@[simp] theorem State.poke_y : (s.poke addr v).y = s.y := rfl
@[simp] theorem State.poke_sp : (s.poke addr v).sp = s.sp := rfl
@[simp] theorem State.poke_p : (s.poke addr v).p = s.p := rfl
@[simp] theorem State.poke_run : (s.poke addr v).run = s.run := rfl
@[simp] theorem State.poke_out : (s.poke addr v).out = s.out := rfl
@[simp] theorem State.writeByte_pc : (s.writeByte cfg addr v).pc = s.pc := by
  obtain ⟨_, _, h⟩ := State.writeByte_rest cfg s addr v; rw [h]
@[simp] theorem State.writeByte_a : (s.writeByte cfg addr v).a = s.a := by
  obtain ⟨_, _, h⟩ := State.writeByte_rest cfg s addr v; rw [h]
@[simp] theorem State.writeByte_x : (s.writeByte cfg addr v).x = s.x := by
  obtain ⟨_, _, h⟩ := State.writeByte_rest cfg s addr v; rw [h]
@[simp] theorem State.writeByte_y : (s.writeByte cfg addr v).y = s.y := by
  obtain ⟨_, _, h⟩ := State.writeByte_rest cfg s addr v; rw [h]
@[simp] theorem State.writeByte_sp : (s.writeByte cfg addr v).sp = s.sp := by
  obtain ⟨_, _, h⟩ := State.writeByte_rest cfg s addr v; rw [h]
@[simp] theorem State.writeByte_p : (s.writeByte cfg addr v).p = s.p := by
  obtain ⟨_, _, h⟩ := State.writeByte_rest cfg s addr v; rw [h]
@[simp] theorem State.writeByte_run : (s.writeByte cfg addr v).run = s.run := by
  obtain ⟨_, _, h⟩ := State.writeByte_rest cfg s addr v; rw [h]
@[simp] theorem State.writeWord_pc (w : Word) : (s.writeWord cfg addr w).pc = s.pc := by
  simp [State.writeWord]
@[simp] theorem State.writeWord_a (w : Word) : (s.writeWord cfg addr w).a = s.a := by
  simp [State.writeWord]
@[simp] theorem State.writeWord_x (w : Word) : (s.writeWord cfg addr w).x = s.x := by
  simp [State.writeWord]
@[simp] theorem State.writeWord_y (w : Word) : (s.writeWord cfg addr w).y = s.y := by
  simp [State.writeWord]
@[simp] theorem State.writeWord_sp (w : Word) : (s.writeWord cfg addr w).sp = s.sp := by
  simp [State.writeWord]
@[simp] theorem State.writeWord_p (w : Word) : (s.writeWord cfg addr w).p = s.p := by
  simp [State.writeWord]
@[simp] theorem State.writeWord_run (w : Word) : (s.writeWord cfg addr w).run = s.run := by
  simp [State.writeWord]
end

/-- All that a byte write does to what memory reads as. -/
theorem State.readByte_writeByte (cfg : Config) (s : State) (addr : Word) (v : Byte) (addr' : Word) :
    (s.writeByte cfg addr v).readByte addr'
      = if addr' = addr ∧ (addr = ioPort → cfg.portStores = true) then v else s.readByte addr' := by
  unfold State.writeByte
  by_cases hp : addr = ioPort <;> by_cases hs : cfg.portStores = true <;>
    simp [hp, hs, State.readByte_poke]

/-- All that a byte write does to the output stream. -/
theorem State.writeByte_out (cfg : Config) (s : State) (addr : Word) (v : Byte) :
    (s.writeByte cfg addr v).out = if addr = ioPort then s.out ++ [v] else s.out := by
  unfold State.writeByte
  split
  · split <;> rfl
  · rfl

end Sys2Proof.Machine
end

