-- ==== Sys2Proof/Laws/PerInstr.lean ====
section
/-! SUPPORT. A statement about every instruction as syntax, one lemma per constructor. -/

namespace Sys2Proof.Laws.EncodedLength

/-- The encoding of an instruction is one to three bytes, as many as its length says, whatever the
opcode map (spec 30_encoding.md R70, R78; one byte for an unrecognized opcode, log entry 20). -/
def Statement (i : Instr) : Prop :=
  ∀ cfg : Config, (encode cfg i).length = i.length ∧ 1 ≤ i.length ∧ i.length ≤ 3

/-- The length by constructor (30_encoding.md R78). -/
theorem length_eq (i : Instr) : i.length
    = match i with
      | .hlt | .nop | .clc | .unrecognized _ => 1
      | .ldaImm _ | .adcImm _ | .cmpImm _ | .bccRel _ => 2
      | .staAbs _ => 3 := by
  cases i <;> rfl

theorem hlt : Statement .hlt := by simp [Statement, encode, length_eq]
theorem nop : Statement .nop := by simp [Statement, encode, length_eq]
theorem clc : Statement .clc := by simp [Statement, encode, length_eq]
theorem ldaImm (imm : Byte) : Statement (.ldaImm imm) := by simp [Statement, encode, length_eq]
theorem staAbs (addr : Word) : Statement (.staAbs addr) := by simp [Statement, encode, length_eq]
theorem adcImm (imm : Byte) : Statement (.adcImm imm) := by simp [Statement, encode, length_eq]
theorem cmpImm (imm : Byte) : Statement (.cmpImm imm) := by simp [Statement, encode, length_eq]
theorem bccRel (rel : Byte) : Statement (.bccRel rel) := by simp [Statement, encode, length_eq]
theorem unrecognized (op : Byte) : Statement (.unrecognized op) := by simp [Statement, encode, length_eq]

end Sys2Proof.Laws.EncodedLength
end

