-- ==== Sys2Proof/Laws/Reset.lean ====
section
/-! SUPPORT. Word accesses, placing bytes, and what `boot` answers: the reset sequence of
spec 70_reset_and_hazards.md. -/

namespace Sys2Proof.Machine

/-! ### Word accesses -/

theorem Word.add_one_ne (addr : Word) : addr + 1 ≠ addr := by
  bv_omega

/-- A word read as a number: little-endian (20_memory.md R46). -/
theorem State.toNat_readWord (s : State) (addr : Word) :
    (s.readWord addr).toNat = (s.readByte (addr + 1)).toNat * 256 + (s.readByte addr).toNat :=
  toNat_mkWord _ _

/-! ### Placing bytes -/

/-- Placing bytes changes memory only. -/
theorem State.pokeAll_rest (s : State) (addr : Word) (bytes : List Byte) :
    ∃ m, s.pokeAll addr bytes = s.setMem m := by
  induction bytes generalizing s addr with
  | nil => exact ⟨s.mem, rfl⟩
  | cons b bs ih => exact ih (s.poke addr b) (addr + 1)

/-- All that placing bytes does to memory: byte `i` is at `addr + i`, wrapping, and every other
address is untouched. -/
theorem State.readByte_pokeAll (s : State) (addr : Word) (bytes : List Byte)
    (hlen : bytes.length ≤ memorySize) (addr' : Word) :
    (s.pokeAll addr bytes).readByte addr'
      = if (addr' - addr).toNat < bytes.length then bytes.getD (addr' - addr).toNat 0
        else s.readByte addr' := by
  induction bytes generalizing s addr with
  | nil => simp [State.pokeAll]
  | cons b bs ih =>
    simp only [List.length_cons, memorySize] at hlen ⊢
    rw [State.pokeAll, ih _ _ (by simp only [memorySize]; omega), State.readByte_poke]
    by_cases h : addr' = addr
    · subst h
      have h1 : (addr' - (addr' + 1)).toNat = 65535 := by
        have : addr' - (addr' + 1) = 65535 := by bv_omega
        rw [this]; rfl
      have h2 : (addr' - addr').toNat = 0 := by simp
      rw [h1, h2, if_neg (by omega)]
      simp
    · have h1 : (addr' - addr).toNat = (addr' - (addr + 1)).toNat + 1 := by bv_omega
      rw [h1, if_neg h]
      simp

/-! ### Boot -/

/-- Actions 3 and 4 of reset leave the program counter at zero: the vector was just cleared (R163). -/
theorem loadPc_after_forcing (cfg : Config) (s : State) :
    loadPcFromVector (forceResetVector cfg s) = (forceResetVector cfg s).setPc 0 := by
  have hw : (forceResetVector cfg s).readWord resetVector = 0 := by
    have h0 : (forceResetVector cfg s).readByte resetVector = 0 := by
      simp [forceResetVector, State.writeWord, State.readByte_writeByte, resetVector, ioPort, loByte]
    have h1 : (forceResetVector cfg s).readByte (resetVector + 1) = 0 := by
      simp [forceResetVector, State.writeWord, State.readByte_writeByte, resetVector, ioPort, hiByte]
    rw [State.readWord, h0, h1]; rfl
  rw [loadPcFromVector, hw]

/-- The inversion of `boot`: it answers a next state exactly for an image that fits. -/
theorem boot_eq_next {cfg : Config} {image : List Byte} {s : State} :
    boot cfg image = .next s ↔ image.length ≤ memorySize ∧
      s = (forceResetVector cfg (placeImage image (clearedState cfg))).setPc 0 := by
  unfold boot
  by_cases h : image.length ≤ memorySize
  · simp [h, loadPc_after_forcing, eq_comm]
  · simp [h]

end Sys2Proof.Machine
end

