-- ==== Sys2Proof/Laws/Step.lean ====
section
/-! SUPPORT. What a step can do, said once: `exec` is `effect` at the standard parameters, and `step`
answers a next state exactly while the core is running. -/

namespace Sys2Proof.Machine

/-- The dispatch of `exec` is the one of `effect`. -/
theorem exec_eq_effect (i : Instr) (s : State) : exec i s = .next (effect standardConfig i s) := by
  cases i <;> rfl

theorem stopReason_eq_none {r : RunStatus} : stopReason r = none ↔ r = .running := by
  cases r <;> simp [stopReason]

theorem stepWith_running {cfg : Config} {s : State} (h : s.run = .running) :
    stepWith cfg s = some (effect cfg (fetchInstr cfg s) s) := by simp [stepWith, h, stopReason]

theorem stepWith_terminal {cfg : Config} {s : State} (h : s.run ≠ .running) : stepWith cfg s = none := by
  unfold stepWith
  cases hr : stopReason s.run with
  | none => exact absurd (stopReason_eq_none.1 hr) h
  | some _ => rfl

/-- The inversion of a step for any parameters. -/
theorem stepWith_eq_some {cfg : Config} {s t : State} :
    stepWith cfg s = some t ↔ s.run = .running ∧ t = effect cfg (fetchInstr cfg s) s := by
  by_cases h : s.run = .running
  · simp [stepWith_running h, h, eq_comm]
  · simp [stepWith_terminal h, h]

/-- The inversion of `step`: it answers a next state only from a running one, and that state is the
effect of the fetched instruction. -/
theorem step_eq_next {s t : State} :
    step s = .next t ↔ s.run = .running ∧ t = effect standardConfig (fetchInstr standardConfig s) s := by
  unfold step
  cases hr : stopReason s.run with
  | none => simp [stopReason_eq_none.1 hr, exec_eq_effect, eq_comm]
  | some reason =>
    have : s.run ≠ .running := fun h => by simp [h, stopReason] at hr
    simp [this]

/-! ### Runs -/

@[simp] theorem runFor_zero (cfg : Config) (s : State) : runFor cfg 0 s = s := rfl

/-- The first step of a run from a running state (40_step_cycle.md R94). -/
theorem runFor_succ_running {cfg : Config} {s : State} (h : s.run = .running) (k : Nat) :
    runFor cfg (k + 1) s = runFor cfg k (effect cfg (fetchInstr cfg s) s) := by
  simp [runFor, stepWith_running h]

/-- A run from a terminal state stays there (40_step_cycle.md R95). -/
theorem runFor_terminal {cfg : Config} {s : State} (h : s.run ≠ .running) (k : Nat) : runFor cfg k s = s := by
  cases k <;> simp [runFor, stepWith_terminal h]

/-- A run can be cut anywhere. -/
theorem runFor_add (cfg : Config) (j k : Nat) (s : State) :
    runFor cfg (j + k) s = runFor cfg k (runFor cfg j s) := by
  induction j generalizing s with
  | zero => rw [Nat.zero_add, runFor_zero]
  | succ j ih =>
    rw [Nat.succ_add]
    by_cases h : s.run = .running
    · rw [runFor_succ_running h, runFor_succ_running h, ih]
    · rw [runFor_terminal h, runFor_terminal h, runFor_terminal h]

/-! ### Effects -/

/-- No instruction writes X, Y or SP. -/
theorem effect_inert (cfg : Config) (i : Instr) (s : State) :
    (effect cfg i s).x = s.x ∧ (effect cfg i s).y = s.y ∧ (effect cfg i s).sp = s.sp := by
  cases i with
  | bccRel rel => simp only [effect, bccRelEffect]; split <;> exact ⟨rfl, rfl, rfl⟩
  | _ => simp [effect, hltEffect, nopEffect, clcEffect, ldaImmEffect, staAbsEffect, adcImmEffect,
      cmpImmEffect, unrecognizedEffect, State.halt, State.raiseIllegalOpcode, State.clearCarry]

/-- An instruction other than STA leaves memory and the output as they were. -/
theorem effect_mem_of_not_sta (cfg : Config) {i : Instr} (hi : ∀ addr, i ≠ .staAbs addr) (s : State) :
    (effect cfg i s).mem = s.mem ∧ (effect cfg i s).out = s.out := by
  cases i with
  | staAbs addr => exact absurd rfl (hi addr)
  | bccRel rel => simp only [effect, bccRelEffect]; split <;> exact ⟨rfl, rfl⟩
  | _ => simp [effect, hltEffect, nopEffect, clcEffect, ldaImmEffect, adcImmEffect,
      cmpImmEffect, unrecognizedEffect, State.halt, State.raiseIllegalOpcode, State.clearCarry]

/-- What an instruction does to the run status: only HLT and an unrecognized opcode touch it. -/
theorem effect_run (cfg : Config) (i : Instr) (s : State) :
    (effect cfg i s).run
      = match i with
        | .hlt => .halted
        | .unrecognized op => .fault op s.pc
        | _ => s.run := by
  cases i with
  | bccRel rel => simp only [effect, bccRelEffect]; split <;> rfl
  | _ => simp [effect, hltEffect, nopEffect, clcEffect, ldaImmEffect, staAbsEffect, adcImmEffect,
      cmpImmEffect, unrecognizedEffect, State.halt, State.raiseIllegalOpcode, State.clearCarry]

end Sys2Proof.Machine
end

