-- ==== Sys2Proof/Tests/Slice0.lean ====
section
/-! SUPPORT. Small tests whose expected results are the spec's own (95_test_vectors.md, named in each
comment, and the encodings of 30_encoding.md R77), and for every obligation with hypotheses a concrete
state and operands that meet them all. -/

namespace Sys2Proof.Tests

open Sys2Proof.Machine

/-- A running state with bytes placed at the program counter. -/
def start (pc : Word) (bytes : List Byte) (a p : Byte) : State :=
  (((State.reset.setPc pc).setA a).setP p).pokeAll pc bytes

/-- The state a step answers; the state itself where it answers none. -/
def after (s : State) : State :=
  match step s with
  | .next t => t
  | _ => s

/-! ### Well-formedness smoke -/

theorem test_wf_refuses_recognised_byte : (Instr.unrecognized 0x00).wf standardConfig = false := by decide
theorem test_wf_accepts_other_byte : (Instr.unrecognized 0x4C).wf standardConfig = true := by decide

/-! ### Decoding: words written out bit by bit from R77 (bytes in memory order) -/

theorem test_decode_hlt : decode standardConfig [0b00000000#8] = .ok (.hlt, []) := by rfl
theorem test_decode_nop : decode standardConfig [0b11101010#8] = .ok (.nop, []) := by rfl
theorem test_decode_clc : decode standardConfig [0b00011000#8] = .ok (.clc, []) := by rfl
theorem test_decode_lda :
    decode standardConfig [0b10101001#8, 0b01000001#8] = .ok (.ldaImm 0x41, []) := by rfl
theorem test_decode_sta :
    decode standardConfig [0b10001101#8, 0b00000010#8, 0b11000000#8] = .ok (.staAbs 0xC002, []) := by rfl
theorem test_decode_adc :
    decode standardConfig [0b01101001#8, 0b00000001#8] = .ok (.adcImm 0x01, []) := by rfl
theorem test_decode_cmp :
    decode standardConfig [0b11001001#8, 0b01000100#8] = .ok (.cmpImm 0x44, []) := by rfl
theorem test_decode_bcc :
    decode standardConfig [0b10010000#8, 0b11110110#8] = .ok (.bccRel 0xF6, []) := by rfl
theorem test_decode_other :
    decode standardConfig [0b01001100#8, 0x00#8] = .ok (.unrecognized 0x4C, [0x00]) := by rfl
theorem test_decode_truncated : decode standardConfig [0x8D#8, 0x00#8] = .error (.truncated 0x8D) := by rfl
theorem test_decode_nothing : decode standardConfig [] = .error .noBytes := by rfl

/-! ### One step each -/

/-- V-HLT-1. -/
theorem test_hlt : (after (start 0x0005 [0x00] 0x41 0x03)).run = .halted
    ∧ (after (start 0x0005 [0x00] 0x41 0x03)).pc = 0x0005 := by decide

/-- V-HLT-2. -/
theorem test_hlt_from_reset : (after State.reset).run = .halted ∧ (after State.reset).out = [] := by decide

/-- V-NOP-2. -/
theorem test_nop_wraps : (after (start 0xFFFF [0xEA] 0 0)).pc = 0x0000 := by decide

/-- V-CLC-1. -/
theorem test_clc : (after (start 0x0200 [0x18] 0 0xFF)).p = 0xFE
    ∧ (after (start 0x0200 [0x18] 0 0xFF)).pc = 0x0201 := by decide

/-- V-LDA-5. -/
theorem test_lda_keeps_other_flags : (after (start 0x0000 [0xA9, 0x01] 0 0xFF)).p = 0x7D := by decide

/-- V-LDA-7: the operand at the top of memory. -/
theorem test_lda_wraps : (after (start 0xFFFE [0xA9, 0x99] 0 0)).a = 0x99
    ∧ (after (start 0xFFFE [0xA9, 0x99] 0 0)).pc = 0x0000
    ∧ (after (start 0xFFFE [0xA9, 0x99] 0 0)).p = 0x80 := by decide

/-- V-STA-3: a zero byte is emitted too, and the port's stored byte stays. -/
theorem test_sta_port :
    (after ((start 0x0002 [0x8D, 0x00, 0xC0] 0x00 0).poke 0xC000 0x55)).out = [0x00]
    ∧ (after ((start 0x0002 [0x8D, 0x00, 0xC0] 0x00 0).poke 0xC000 0x55)).readByte 0xC000 = 0x55 := by decide

/-- V-STA-6: the operand wraps. -/
theorem test_sta_wraps : (after (start 0xFFFF [0x8D, 0x34, 0x12] 0x77 0)).readByte 0x1234 = 0x77
    ∧ (after (start 0xFFFF [0x8D, 0x34, 0x12] 0x77 0)).pc = 0x0002 := by decide

/-- V-ADC-10: the carry counts in, and stays set. -/
theorem test_adc_carry_in : (after (start 0x0010 [0x69, 0x01] 0xFE 0x01)).a = 0x00
    ∧ (after (start 0x0010 [0x69, 0x01] 0xFE 0x01)).p = 0x03 := by decide

/-- V-ADC-11: binary although D is set; V and C stay. -/
theorem test_adc_ignores_decimal : (after (start 0x0010 [0x69, 0x01] 0x01 0xFF)).a = 0x03
    ∧ (after (start 0x0010 [0x69, 0x01] 0x01 0xFF)).p = 0x7D := by decide

/-- V-CMP-12: less; N is kept. -/
theorem test_cmp_less : (after (start 0x0010 [0xC9, 0x05] 0x03 0xFF)).p = 0xFC := by decide

/-- V-CMP-5: unsigned, 128 is greater than 127. -/
theorem test_cmp_unsigned : (after (start 0x0010 [0xC9, 0x7F] 0x80 0x00)).p = 0x01 := by decide

/-- V-BCC-5: the farthest backward, past zero. -/
theorem test_bcc_backward : (after (start 0x0010 [0x90, 0x80] 0 0)).pc = 0xFF92 := by decide

/-- V-BCC-11: not taken, the operand at 0x0000. -/
theorem test_bcc_not_taken : (after (start 0xFFFF [0x90, 0x10] 0 1)).pc = 0x0001 := by decide

/-- V-ILL-2. -/
theorem test_unrecognized : (after (start 0xFFFF [0x4C] 0 0)).run = .fault 0x4C 0xFFFF
    ∧ (after (start 0xFFFF [0x4C] 0 0)).pc = 0xFFFF := by decide

/-! ### Accessors, reset, notation -/

/-- V-MEM-3. -/
theorem test_word_read_wraps :
    ((State.reset.poke 0xFFFF 0x34).poke 0x0000 0x12).readWord 0xFFFF = 0x1234 := by decide

/-- V-MEM-6: the high byte goes to the port. -/
theorem test_word_write_across_the_port :
    (State.reset.writeWord standardConfig 0xBFFF 0x4142).out = [0x41]
    ∧ (State.reset.writeWord standardConfig 0xBFFF 0x4142).readWord 0xBFFF = 0x0042 := by decide

/-- V-RST-1. -/
theorem test_boot : boot standardConfig [0xA9, 0x41, 0x8D, 0x00, 0xC0, 0x00]
    = .next (State.reset.setMem [(0, 0xA9), (1, 0x41), (2, 0x8D), (4, 0xC0)]) := by rfl

/-- Program P2's listing assembles to its image (30_encoding.md R83, R84). -/
theorem test_listing : (assembleFrom standardConfig 0 [.org 0x0000, .instr (.ldaImm 0x41),
      .instr (.staAbs 0xC000), .instr .clc, .instr (.adcImm 0x01), .instr (.cmpImm 0x44),
      .bccTo 0x0002, .instr .hlt]).map (·.map (·.2))
    = some [0xA9, 0x41, 0x8D, 0x00, 0xC0, 0x18, 0x69, 0x01, 0xC9, 0x44, 0x90, 0xF6, 0x00] := by decide

/-- The text of two lines of P2. -/
theorem test_listing_text : (Instr.staAbs 0xC000).listing 0x0002 = "STA $C000"
    ∧ (Instr.bccRel 0xF6).listing 0x000A = "BCC $0002" := by decide

/-! ### Witnesses: the hypotheses of each obligation, met together -/

/-- The standard layout turned round: a second admissible layout. -/
def reversedLayout (f : Flag) : Fin 8 := Fin.rev (standardFlagBits f)

theorem reversedLayout_injective : Function.Injective reversedLayout := fun _ _ h =>
  standardConfig_legal.flagBit_injective (Fin.rev_injective h)

/-- A running core about to store its accumulator at `addr`. -/
def storing (addr : Word) : State := start 0x0010 [0x8D, loByte addr, hiByte addr] 0x42 0

theorem witness_DecodeInvertsEncode : standardConfig.Legal ∧ (Instr.unrecognized 0xFF).wf standardConfig = true
    ∧ (Instr.staAbs 0xFFFF).wf standardConfig = true := ⟨standardConfig_legal, by decide, by decide⟩

theorem witness_EncodeInvertsDecode :
    decode standardConfig [0x8D, 0x01, 0xC0, 0xEA] = .ok (.staAbs 0xC001, [0xEA]) := by rfl

theorem witness_DecodeTakesTheLength : 3 ≤ ([0x8D, 0x01, 0xC0] : List Byte).length := by decide

theorem witness_StepRunsTheDecodedInstruction : (storing 0x0200).run = .running
    ∧ decode standardConfig [(storing 0x0200).readByte 0x0010, (storing 0x0200).readByte 0x0011,
        (storing 0x0200).readByte 0x0012] = .ok (.staAbs 0x0200, []) := ⟨by decide, by rfl⟩

theorem witness_PlacedWordIsTheOneThatRuns :
    decodeTableWord 24 0xC0008D = some (.staAbs 0xC000) ∧ decodeTableWord 8 0x00 = some .hlt := by decide

theorem witness_EveryInstructionCompletes : State.reset.run = .running := by rfl

theorem witness_RunStatusFollowsTheOpcode :
    step (start 0 [0xFF] 0 0) = .next (after (start 0 [0xFF] 0 0))
    ∧ opcodeOf standardConfig (start 0 [0xFF] 0 0).fetchOpcode = none
    ∧ step State.reset = .next (after State.reset)
    ∧ opcodeOf standardConfig State.reset.fetchOpcode = some .hlt
    ∧ step (storing 0) = .next (after (storing 0))
    ∧ opcodeOf standardConfig (storing 0).fetchOpcode = some .staAbs :=
  ⟨rfl, by decide, rfl, by decide, rfl, by decide⟩

theorem witness_TerminalStatesNeverChange : State.reset.halt.run ≠ .running
    ∧ (State.reset.raiseIllegalOpcode 0xFF).run ≠ .running := by decide

theorem witness_RunStopsOnlyAtHaltOrUnrecognized : (storing 0x0200).run = .running
    ∧ (runFor standardConfig 1 (storing 0x0200)).run = .running := by decide

theorem witness_HostRunAgreesWithRunFor :
    Host.Core.run Sys2Proof.core 1 (storing 0x0200) = .next (after (storing 0x0200))
    ∧ (runFor standardConfig 1 (storing 0x0200)).run = .running := ⟨rfl, by decide⟩

/-- Both sides: a recognised and an unrecognized byte. -/
theorem witness_StepStaysSafeExactlyOnRecognisedOpcodes : Safe (storing 0) ∧ Safe (start 0 [0xFF] 0 0)
    ∧ step (storing 0) = .next (after (storing 0))
    ∧ step (start 0 [0xFF] 0 0) = .next (after (start 0 [0xFF] 0 0)) :=
  ⟨fun _ _ h => RunStatus.noConfusion h, fun _ _ h => RunStatus.noConfusion h, rfl, rfl⟩

/-- A run that halts and one that faults. -/
theorem witness_FinishedRunKeepsItsResult :
    (runFor standardConfig 1 State.reset).result = some ([], .halted)
    ∧ (runFor standardConfig 1 (start 7 [0xFF] 0 0)).result = some ([], .fault 0xFF 7) := by decide

/-- For the last clause of ClcClearsOnlyTheCarry and of CmpComparesUnsigned. -/
theorem witness_ClcClearsOnlyTheCarry :
    exec (.cmpImm 0) State.reset = .next (cmpImmEffect standardConfig 0 State.reset)
    ∧ State.reset.flag standardConfig .carry = false
    ∧ (cmpImmEffect standardConfig 0 State.reset).flag standardConfig .carry = true :=
  ⟨rfl, by decide, by decide⟩

theorem witness_LdaLoadsAndSetsZeroAndNegative :
    opcodeOf standardConfig (start 0xFFFF [0xA9, 0x80] 0 0).fetchOpcode = some .ldaImm := by decide

/-- The clauses of StaStoresOrEmits: the fetch, and the addresses at and on both sides of the port. -/
theorem witness_StaStoresOrEmits :
    opcodeOf standardConfig (storing 0xC000).fetchOpcode = some .staAbs
    ∧ (0xBFFF : Word) ≠ 0xC000 ∧ (0xC001 : Word) ≠ 0xC000
    ∧ (after (storing 0xC000)).out = [0x42] ∧ (after (storing 0xBFFF)).readByte 0xBFFF = 0x42
    ∧ (after (storing 0xC001)).readByte 0xC001 = 0x42 := by decide

theorem witness_AdcAddsWithCarryIn :
    opcodeOf standardConfig (start 0 [0x69, 0xFF] 0xFF 1).fetchOpcode = some .adcImm := by decide

/-- The three clauses of CmpComparesUnsigned, next to each other. -/
theorem witness_CmpComparesUnsigned :
    opcodeOf standardConfig (start 0 [0xC9, 0x80] 0x80 0).fetchOpcode = some .cmpImm
    ∧ (0x80 : Byte).toNat = (0x80 : Byte).toNat ∧ (0x7F : Byte).toNat < (0x80 : Byte).toNat
    ∧ (0x80 : Byte).toNat < (0x81 : Byte).toNat := by decide

theorem witness_BccBranchesOnCarryClear :
    opcodeOf standardConfig (start 0xFFFE [0x90, 0x80] 0 0).fetchOpcode = some .bcc
    ∧ (start 0xFFFE [0x90, 0x80] 0 0).flag standardConfig .carry = false
    ∧ (start 0xFFFE [0x90, 0x80] 0 1).flag standardConfig .carry = true := by decide

theorem witness_FaultIsPreciseAndFinal : (start 7 [0xFF] 0x80 0x80).run = .running
    ∧ opcodeOf standardConfig (start 7 [0xFF] 0x80 0x80).fetchOpcode = none := by decide

theorem witness_HaltIsFinal : State.reset.run = .running
    ∧ opcodeOf standardConfig State.reset.fetchOpcode = some .hlt := by decide

theorem witness_OnlyBccTransfersControl :
    exec (.bccRel 0x80) State.reset = .next (bccRelEffect standardConfig 0x80 State.reset)
    ∧ exec .hlt State.reset = .next State.reset.halt
    ∧ exec .nop State.reset = .next (State.reset.advance 1) := ⟨rfl, rfl, rfl⟩

theorem witness_BranchToItselfNeverEnds : (start 0x10 [0x90, 0xFE] 0 0).run = .running
    ∧ (start 0x10 [0x90, 0xFE] 0 0).readByte 0x10 = standardConfig.opc .bcc
    ∧ (start 0x10 [0x90, 0xFE] 0 0).readByte 0x11 = 0xFE
    ∧ (start 0x10 [0x90, 0xFE] 0 0).flag standardConfig .carry = false := by decide

/-- The clauses of FlagTableIsExact: a flag outside and one inside the list, a status byte with the same
carry (which the second clause asks for ADC alone), and an instruction that reads no flag. -/
theorem witness_FlagTableIsExact : standardConfig.Legal ∧ Flag.carry ∉ flagsWritten (.adcImm 1)
    ∧ (Flag.zero ∈ flagsWritten (.adcImm 1)
      ∧ ((∃ imm, Instr.adcImm 1 = .adcImm imm) →
          readFlag standardConfig .carry 0xFE = State.reset.flag standardConfig .carry))
    ∧ (Flag.carry ∈ flagsWritten (.cmpImm 1)
      ∧ ((∃ imm, Instr.cmpImm 1 = .adcImm imm) →
          readFlag standardConfig .carry 0xFF = State.reset.flag standardConfig .carry))
    ∧ (∀ imm, Instr.clc ≠ .adcImm imm) ∧ ∀ rel, Instr.clc ≠ .bccRel rel :=
  ⟨standardConfig_legal, by decide, ⟨by decide, fun _ => by decide⟩,
    ⟨by decide, fun ⟨_, h⟩ => Instr.noConfusion h⟩, by simp, by simp⟩

theorem witness_SetZNWritesZeroAndNegative : standardConfig.Legal ∧ Flag.carry ≠ .zero
    ∧ Flag.carry ≠ .negative := ⟨standardConfig_legal, by decide, by decide⟩

theorem witness_FlagsAreIndependent : standardConfig.Legal ∧ Flag.zero ≠ .carry :=
  ⟨standardConfig_legal, by decide⟩

theorem witness_InertFlagsKeepTheirResetValue : standardConfig.Legal
    ∧ boot standardConfig [] = .next State.reset ∧ Flag.decimal ∈ inertFlags :=
  ⟨standardConfig_legal, rfl, by decide⟩

/-- Carry set under the standard layout and under the reversed one. -/
theorem witness_FlagLayoutChangesNoRun : standardConfig.Legal ∧ Function.Injective reversedLayout
    ∧ SameUpToLayout standardConfig { standardConfig with flagBit := reversedLayout }
        (start 0 [0x90, 0x02] 0 0x01) (start 0 [0x90, 0x02] 0 0x80) :=
  ⟨standardConfig_legal, reversedLayout_injective, rfl, by intro f; cases f <;> decide⟩

theorem witness_OnlyTheCarryInfluencesARun : standardConfig.Legal
    ∧ SameUpToOtherFlags standardConfig (start 0 [0x69, 0x02] 0 0x01) (start 0 [0x69, 0x02] 0 0xFF) :=
  ⟨standardConfig_legal, rfl, by decide⟩

/-- Words next to the port on both sides, and the port itself. -/
theorem witness_MemoryRoundTrips : (0xBFFE : Word) ≠ ioPort ∧ (0xBFFE : Word) + 1 ≠ ioPort
    ∧ (0xC001 : Word) ≠ ioPort ∧ (0xC001 : Word) + 1 ≠ ioPort ∧ standardConfig.portStores = false := by
  decide

/-- Both bytes off the port, the high byte on it, the low byte on it. -/
theorem witness_WordWriteDecodesEachByte : standardConfig.portStores = false
    ∧ (0xBFFF : Word) + 1 = ioPort ∧ (0xC000 : Word) = ioPort
    ∧ (State.reset.writeWord standardConfig 0xC000 0x4142).out = [0x42] := by decide

theorem witness_WritesAreIdempotentButAtThePort : (0xC001 : Word) ≠ ioPort := by decide

theorem witness_CanonicalMemories : Memory.wf [(0, 1), (65535, 2)]
    ∧ Memory.wf (Memory.write [(0, 1)] 65535 2)
    ∧ ∀ addr : Word, Memory.read [(0, 1), (65535, 2)] addr.toNat
        = (Memory.write [(0, 1)] 65535 2).read addr.toNat := ⟨by decide, by decide, fun _ => rfl⟩

theorem witness_OnlyStaChangesMemory : step (storing 0x0200) = .next (after (storing 0x0200))
    ∧ (after (storing 0x0200)).readByte 0x0200 ≠ (storing 0x0200).readByte 0x0200 := ⟨rfl, by decide⟩

/-- A state about to store 0x42 at `addr`, with another STA after it. -/
def storingAhead (addr : Word) : State :=
  start 0x0010 [0x8D, loByte addr, hiByte addr, 0x8D, 0x00, 0x02] 0x42 0

/-- A store to the next opcode byte, to the next low and to the next high operand byte. -/
theorem witness_StoreIsSeenByTheNextFetch :
    (step (storingAhead 0x0013) = .next (after (storingAhead 0x0013))
      ∧ fetchInstr standardConfig (storingAhead 0x0013) = .staAbs 0x0013 ∧ (0x0013 : Word) ≠ ioPort
      ∧ (after (storingAhead 0x0013)).pc = 0x0013)
    ∧ (step (storingAhead 0x0014) = .next (after (storingAhead 0x0014))
      ∧ fetchInstr standardConfig (storingAhead 0x0014) = .staAbs 0x0014 ∧ (0x0014 : Word) ≠ ioPort
      ∧ (after (storingAhead 0x0014)).pc + 1 = 0x0014
      ∧ opcodeOf standardConfig (after (storingAhead 0x0014)).fetchOpcode = some .staAbs
      ∧ fetchInstr standardConfig (after (storingAhead 0x0014)) = .staAbs 0x0242)
    ∧ (step (storingAhead 0x0015) = .next (after (storingAhead 0x0015))
      ∧ fetchInstr standardConfig (storingAhead 0x0015) = .staAbs 0x0015 ∧ (0x0015 : Word) ≠ ioPort
      ∧ (after (storingAhead 0x0015)).pc + 2 = 0x0015
      ∧ opcodeOf standardConfig (after (storingAhead 0x0015)).fetchOpcode = some .staAbs
      ∧ fetchInstr standardConfig (after (storingAhead 0x0015)) = .staAbs 0x4200) :=
  ⟨⟨rfl, by decide⟩, ⟨rfl, by decide⟩, ⟨rfl, by decide⟩⟩

theorem witness_PortByteNeverChanges : standardConfig.portStores = false := rfl

theorem witness_OutputOnlyGrows :
    stepWith standardConfig (storing ioPort) = some (after (storing ioPort))
    ∧ fetchInstr standardConfig (storing ioPort) = .staAbs ioPort := ⟨rfl, by decide⟩

/-- Two states that differ in the byte stored at the port, about to write to it. -/
theorem witness_PortStoringMatters : SameUpToPortByte (storing ioPort) ((storing ioPort).poke ioPort 0x55)
    ∧ FetchAvoidsPort standardConfig (storing ioPort) :=
  ⟨⟨rfl, fun addr h => by rw [State.readByte_poke, if_neg h]⟩, by unfold FetchAvoidsPort; decide⟩

theorem witness_StepKeepsTheInvariant : Inv (storing 0x0200)
    ∧ step (storing 0x0200) = .next (after (storing 0x0200)) := ⟨⟨by decide, trivial⟩, rfl⟩

/-- For BootMeetsTheInvariant, InertRegistersKeepTheirResetValue and ResetZeroesTheRegisters. -/
theorem witness_boot : boot standardConfig [0xEA, 0x00] = .next (State.reset.setMem [(0, 0xEA)]) := rfl

/-- Both sides of the bound on the image. -/
theorem witness_BootLaysOutTheImage : (List.replicate 65536 (0 : Byte)).length ≤ 65536
    ∧ 65536 < (List.replicate 65537 (0 : Byte)).length :=
  ⟨List.length_replicate.le, List.length_replicate.symm ▸ Nat.lt_succ_self 65536⟩

theorem witness_TraceHasOneRecordPerStep :
    (runFor standardConfig 1 (storing 0x0200)).run = .running := by decide

end Sys2Proof.Tests
end

/-! PROOFS about the state: the flags, the registers, the output stream and the reset values
(spec 10_state.md). First what an effect does to each component of the state, then the two ways to
carry a fact along a run, then the obligations. -/

namespace Sys2Proof.Machine

/-! ### The status byte and the rest of the state

`s.setP 0` is the state without its status byte. Every other update commutes with it, and a flag
computation disappears under it. -/

section
variable (cfg : Config) (s : State) (p : Byte)
@[simp] theorem State.setP_setP (q : Byte) : (s.setP q).setP p = s.setP p := rfl
@[simp] theorem State.setP_self : s.setP s.p = s := rfl
theorem State.setPc_setP (v : Word) : (s.setPc v).setP p = (s.setP p).setPc v := rfl
theorem State.setA_setP (v : Byte) : (s.setA v).setP p = (s.setP p).setA v := rfl
theorem State.setRun_setP (r : RunStatus) : (s.setRun r).setP p = (s.setP p).setRun r := rfl
theorem State.advance_setP (n : Nat) : (s.advance n).setP p = (s.setP p).advance n := rfl

theorem State.writeByte_setP (addr : Word) (v : Byte) :
    (s.writeByte cfg addr v).setP p = (s.setP p).writeByte cfg addr v := by
  unfold State.writeByte
  split
  · split <;> rfl
  · rfl

@[simp] theorem State.assign_setP (f : Flag) (b : Bool) : (s.assign cfg f b).setP p = s.setP p := rfl

@[simp] theorem State.setZN_setP (v : Byte) : (s.setZN cfg v).setP p = s.setP p := by
  obtain ⟨_, h⟩ := State.setZN_rest cfg s v; rw [h, State.setP_setP]

@[simp] theorem State.compareFlags_setP (v : Byte) : (s.compareFlags cfg v).setP p = s.setP p := by
  obtain ⟨_, h⟩ := State.compareFlags_rest cfg s v; rw [h, State.setP_setP]

/-- `SetZN` looks at its argument and the status byte, not at the accumulator. -/
theorem State.setA_setZN (w v : Byte) : (s.setA w).setZN cfg v = (s.setZN cfg v).setA w := by
  unfold State.setZN
  split <;> split <;> rfl
end

/-- States that are equal outside the status byte are equal in the other components. -/
theorem State.fields_of_setP_eq {s₁ s₂ : State} {p : Byte} (h : s₁.setP p = s₂.setP p) :
    s₁.pc = s₂.pc ∧ s₁.a = s₂.a ∧ s₁.run = s₂.run :=
  ⟨by simpa using congrArg State.pc h, by simpa using congrArg State.a h,
    by simpa using congrArg State.run h⟩

theorem State.getCarry_congr {cfg₁ cfg₂ : Config} {s₁ s₂ : State}
    (h : s₁.flag cfg₁ .carry = s₂.flag cfg₂ .carry) : s₁.getCarry cfg₁ = s₂.getCarry cfg₂ := by
  rw [State.getCarry, h, State.getCarry]

/-- Bit 7 of a byte is its sign: set from 0x80 on (10_state.md R31). -/
theorem getLsbD_seven_eq_decide (v : Byte) : v.getLsbD 7 = decide (0x80 ≤ v.toNat) := by
  revert v; decide

theorem decide_eq_zero_eq_decide_toNat (v : Byte) : decide (v = 0) = decide (v.toNat = 0) := by
  simp [← BitVec.toNat_inj]

/-! ### What an effect does to the flags, the PC and the output -/

/-- The value an instruction gives a flag, from the accumulator and the carry before it; none where
it leaves the flag alone (the "Flags affected" column of 10_state.md R29, with values). -/
def flagUpdate (a : Byte) (carryIn : Nat) : Instr → Flag → Option Bool
  | .clc, .carry => some false
  | .ldaImm imm, .zero => some (decide (imm = 0))
  | .ldaImm imm, .negative => some (imm.getLsbD 7)
  | .adcImm imm, .zero => some (decide (adcSum a imm carryIn = 0))
  | .adcImm imm, .negative => some ((adcSum a imm carryIn).getLsbD 7)
  | .cmpImm imm, .zero => some (decide (a = imm))
  | .cmpImm imm, .carry => some (decide (imm.toNat ≤ a.toNat))
  | _, _ => none

/-- All that an instruction does to the flags. -/
theorem flag_effect {cfg : Config} (hcfg : cfg.Legal) (i : Instr) (s : State) (f : Flag) :
    (effect cfg i s).flag cfg f = (flagUpdate s.a (s.getCarry cfg) i f).getD (s.flag cfg f) := by
  cases i with
  | hlt | nop | unrecognized op => rfl
  | clc =>
    have h := State.flag_assign hcfg s .carry f false
    cases f <;> exact h
  | ldaImm imm =>
    have h := State.flag_setZN hcfg (s.setA imm) imm f
    cases f <;> exact h
  | staAbs addr => exact congrArg (readFlag cfg f) (State.writeByte_p cfg s addr s.a)
  | adcImm imm =>
    have h := State.flag_setZN hcfg (s.setA (adcSum s.a imm (s.getCarry cfg)))
      (adcSum s.a imm (s.getCarry cfg)) f
    cases f <;> exact h
  | cmpImm imm =>
    have h := State.flag_compareFlags hcfg s imm f
    cases f <;> exact h
  | bccRel rel =>
    simp only [effect, bccRelEffect]
    split <;> rfl

/-- The flags with a new value are those of the table. -/
theorem flagUpdate_isSome (a : Byte) (c : Nat) (i : Instr) (f : Flag) :
    (flagUpdate a c i f).isSome = true ↔ f ∈ flagsWritten i := by
  cases i <;> cases f <;> simp [flagUpdate, flagsWritten]

theorem flagUpdate_eq_none {i : Instr} {f : Flag} (a : Byte) (c : Nat) (h : f ∉ flagsWritten i) :
    flagUpdate a c i f = none := by
  rw [← Option.not_isSome_iff_eq_none, flagUpdate_isSome]; exact h

/-- Only ADC computes flags from the carry. -/
theorem flagUpdate_congr (a : Byte) {c c' : Nat} {i : Instr} (h : (∃ imm, i = .adcImm imm) → c = c')
    (f : Flag) : flagUpdate a c i f = flagUpdate a c' i f := by
  cases i with
  | adcImm imm => rw [h ⟨imm, rfl⟩]
  | _ => cases f <;> rfl

/-- A flag outside the table's list keeps its value. -/
theorem flag_effect_of_not_written {cfg : Config} (hcfg : cfg.Legal) {i : Instr} {f : Flag}
    (h : f ∉ flagsWritten i) (s : State) : (effect cfg i s).flag cfg f = s.flag cfg f := by
  rw [flag_effect hcfg, flagUpdate_eq_none _ _ h, Option.getD_none]

/-- No instruction writes an inert flag (10_state.md R30). -/
theorem not_written_of_inert {f : Flag} (hf : f ∈ inertFlags) (i : Instr) : f ∉ flagsWritten i := by
  cases i <;> cases f <;> simp_all [inertFlags, flagsWritten]

/-- Adding to an address wraps (00_scope.md R8). -/
theorem Word.toNat_add_ofNat (w : Word) (n : Nat) :
    (w + BitVec.ofNat 16 n).toNat = (w.toNat + n) % 65536 := by
  simp

/-- All that an instruction does to the program counter (10_state.md R26). -/
theorem effect_pc (cfg : Config) (i : Instr) (s : State) :
    (effect cfg i s).pc
      = match i with
        | .hlt | .unrecognized _ => s.pc
        | .bccRel rel => if s.getCarry cfg = 0 then branchTarget s.pc rel else s.pc + 2
        | _ => s.pc + BitVec.ofNat 16 i.length := by
  cases i with
  | bccRel rel => simp only [effect, bccRelEffect]; split <;> rfl
  | _ => simp [effect, hltEffect, nopEffect, clcEffect, ldaImmEffect, staAbsEffect, adcImmEffect,
      cmpImmEffect, unrecognizedEffect, State.halt, State.raiseIllegalOpcode, State.clearCarry,
      Laws.EncodedLength.length_eq]

/-- All that an instruction does to the output (20_memory.md R44). -/
theorem effect_out (cfg : Config) (i : Instr) (s : State) :
    (effect cfg i s).out = s.out ++ if i = .staAbs ioPort then [s.a] else [] := by
  by_cases hi : ∃ addr, i = .staAbs addr
  · obtain ⟨addr, rfl⟩ := hi
    have h : (effect cfg (.staAbs addr) s).out = (s.writeByte cfg addr s.a).out := rfl
    rw [h, State.writeByte_out]
    by_cases hp : addr = ioPort <;> simp [hp]
  · have hport : i ≠ .staAbs ioPort := fun h => hi ⟨_, h⟩
    rw [(effect_mem_of_not_sta cfg (fun addr h => hi ⟨addr, h⟩) s).2, if_neg hport, List.append_nil]

/-! ### Along a run -/

/-- What every effect of a fetched instruction keeps holds after any run. -/
theorem runFor_invariant {cfg : Config} {I : State → Prop}
    (hstep : ∀ s, I s → I (effect cfg (fetchInstr cfg s) s)) (k : Nat) {s : State} (h : I s) :
    I (runFor cfg k s) := by
  induction k generalizing s with
  | zero => exact h
  | succ k ih =>
    by_cases hr : s.run = .running
    · rw [runFor_succ_running hr]; exact ih (hstep s h)
    · rw [runFor_terminal hr]; exact h

/-- A relation that fixes the run status and that the effects of the fetched instructions keep holds
between two runs of the same length. -/
theorem runFor_simulation {cfg₁ cfg₂ : Config} {R : State → State → Prop}
    (hrun : ∀ s₁ s₂, R s₁ s₂ → s₁.run = s₂.run)
    (hstep : ∀ s₁ s₂, R s₁ s₂ →
      R (effect cfg₁ (fetchInstr cfg₁ s₁) s₁) (effect cfg₂ (fetchInstr cfg₂ s₂) s₂))
    (k : Nat) {s₁ s₂ : State} (h : R s₁ s₂) : R (runFor cfg₁ k s₁) (runFor cfg₂ k s₂) := by
  induction k generalizing s₁ s₂ with
  | zero => exact h
  | succ k ih =>
    by_cases hr : s₁.run = .running
    · rw [runFor_succ_running hr, runFor_succ_running (hrun _ _ h ▸ hr)]
      exact ih (hstep _ _ h)
    · rw [runFor_terminal hr, runFor_terminal (hrun _ _ h ▸ hr)]
      exact h

/-! ### Two machines that differ in the layout of `P` -/

/-- The instructions that read a flag, the carry (10_state.md R29). -/
def ReadsCarry (i : Instr) : Prop := (∃ imm, i = .adcImm imm) ∨ ∃ rel, i = .bccRel rel

/-- Two states, each under its own layout, that are equal outside the status byte and agree on the
flags in `F`. `SameUpToLayout` is the case of all flags, `SameUpToOtherFlags` that of the carry. -/
def SameOnFlags (F : Flag → Prop) (cfg₁ cfg₂ : Config) (s₁ s₂ : State) : Prop :=
  s₁.setP 0 = s₂.setP 0 ∧ ∀ f, F f → s₁.flag cfg₁ f = s₂.flag cfg₂ f

theorem sameUpToLayout_iff {cfg₁ cfg₂ : Config} {s₁ s₂ : State} :
    SameUpToLayout cfg₁ cfg₂ s₁ s₂ ↔ SameOnFlags (fun _ => True) cfg₁ cfg₂ s₁ s₂ := by
  simp [SameUpToLayout, SameOnFlags]

theorem sameUpToOtherFlags_iff {cfg : Config} {s₁ s₂ : State} :
    SameUpToOtherFlags cfg s₁ s₂ ↔ SameOnFlags (fun f => f = .carry) cfg cfg s₁ s₂ := by
  simp [SameUpToOtherFlags, SameOnFlags]

section
variable {cfg₁ cfg₂ : Config}

/-- The fetch looks at the opcode map and at the state outside the status byte. -/
theorem fetchInstr_congr (hopc : cfg₁.opc = cfg₂.opc) {s₁ s₂ : State} (hrest : s₁.setP 0 = s₂.setP 0) :
    fetchInstr cfg₁ s₁ = fetchInstr cfg₂ s₂ := by
  have hmap (op : Byte) : opcodeOf cfg₁ op = opcodeOf cfg₂ op := by rw [opcodeOf, hopc, opcodeOf]
  calc fetchInstr cfg₁ s₁ = fetchInstr cfg₁ (s₁.setP 0) := rfl
    _ = fetchInstr cfg₁ (s₂.setP 0) := by rw [hrest]
    _ = fetchInstr cfg₁ s₂ := rfl
    _ = fetchInstr cfg₂ s₂ := by rw [fetchInstr, hmap, fetchInstr]

theorem State.writeByte_congr (hport : cfg₁.portStores = cfg₂.portStores) (s : State) (addr : Word)
    (v : Byte) : s.writeByte cfg₁ addr v = s.writeByte cfg₂ addr v := by
  rw [State.writeByte, hport, State.writeByte]

/-- What an instruction does outside the status byte depends on what stands outside it and, for an
instruction that reads the carry, on the carry. -/
theorem effect_setP_zero_congr (hport : cfg₁.portStores = cfg₂.portStores) {i : Instr} {s₁ s₂ : State}
    (hrest : s₁.setP 0 = s₂.setP 0)
    (hcarry : ReadsCarry i → s₁.flag cfg₁ .carry = s₂.flag cfg₂ .carry) :
    (effect cfg₁ i s₁).setP 0 = (effect cfg₂ i s₂).setP 0 := by
  obtain ⟨hpc, ha, -⟩ := State.fields_of_setP_eq hrest
  cases i with
  | hlt => simp only [effect, hltEffect, State.halt, State.setRun_setP, hrest]
  | nop => simp only [effect, nopEffect, State.advance_setP, hrest]
  | clc => simp only [effect, clcEffect, State.clearCarry, State.advance_setP, State.assign_setP, hrest]
  | ldaImm imm =>
    simp only [effect, ldaImmEffect, State.advance_setP, State.setZN_setP, State.setA_setP, hrest]
  | staAbs addr =>
    simp only [effect, staAbsEffect, State.advance_setP, State.writeByte_setP, hrest, ha,
      State.writeByte_congr hport]
  | adcImm imm =>
    simp only [effect, adcImmEffect, State.advance_setP, State.setZN_setP, State.setA_setP, hrest, ha,
      State.getCarry_congr (hcarry (.inl ⟨imm, rfl⟩))]
  | cmpImm imm =>
    simp only [effect, cmpImmEffect, State.advance_setP, State.compareFlags_setP, hrest]
  | bccRel rel =>
    simp only [effect, bccRelEffect, State.getCarry_congr (hcarry (.inr ⟨rel, rfl⟩)), hpc]
    split
    · rw [State.setPc_setP, State.setPc_setP, hrest]
    · rw [State.advance_setP, State.advance_setP, hrest]
  | unrecognized op =>
    simp only [effect, unrecognizedEffect, State.raiseIllegalOpcode, State.setRun_setP, hrest, hpc]

/-- Agreement on a set of flags that holds the carry is kept by every step. -/
theorem SameOnFlags.effect {F : Flag → Prop} (hF : F .carry) (hcfg₁ : cfg₁.Legal) (hcfg₂ : cfg₂.Legal)
    (hopc : cfg₁.opc = cfg₂.opc) (hport : cfg₁.portStores = cfg₂.portStores) {s₁ s₂ : State}
    (h : SameOnFlags F cfg₁ cfg₂ s₁ s₂) :
    SameOnFlags F cfg₁ cfg₂ (effect cfg₁ (fetchInstr cfg₁ s₁) s₁)
      (effect cfg₂ (fetchInstr cfg₂ s₂) s₂) := by
  obtain ⟨hrest, hflag⟩ := h
  obtain ⟨-, ha, -⟩ := State.fields_of_setP_eq hrest
  rw [fetchInstr_congr hopc hrest]
  refine ⟨effect_setP_zero_congr hport hrest fun _ => hflag _ hF, fun f hf => ?_⟩
  rw [flag_effect hcfg₁, flag_effect hcfg₂, ha, State.getCarry_congr (hflag _ hF), hflag f hf]

/-- Agreement on a set of flags that holds the carry is kept by every run. -/
theorem SameOnFlags.runFor {F : Flag → Prop} (hF : F .carry) (hcfg₁ : cfg₁.Legal) (hcfg₂ : cfg₂.Legal)
    (hopc : cfg₁.opc = cfg₂.opc) (hport : cfg₁.portStores = cfg₂.portStores) (k : Nat) {s₁ s₂ : State}
    (h : SameOnFlags F cfg₁ cfg₂ s₁ s₂) : SameOnFlags F cfg₁ cfg₂ (runFor cfg₁ k s₁) (runFor cfg₂ k s₂) :=
  runFor_simulation (fun _ _ ⟨hrest, _⟩ => let ⟨_, _, hrun⟩ := State.fields_of_setP_eq hrest; hrun)
    (fun _ _ h => h.effect hF hcfg₁ hcfg₂ hopc hport) k h

end

/-! ### Boot -/

/-- The registers of the state that an image boots to (10_state.md R36). -/
theorem boot_registers {cfg : Config} {image : List Byte} {s : State} (h : boot cfg image = .next s) :
    s.a = 0 ∧ s.x = 0 ∧ s.y = 0 ∧ s.sp = 0 ∧ s.pc = 0 ∧ s.p = cfg.pReset := by
  obtain ⟨-, rfl⟩ := boot_eq_next.1 h
  obtain ⟨m, hm⟩ := State.pokeAll_rest (clearedState cfg) loadBase image
  rw [placeImage, hm]
  simp [forceResetVector, clearedState]

/-! ### The obligations -/

/-- Settles O32: the runs under the two layouts simulate each other with all eight flags related. -/
theorem flagLayoutChangesNoRun : Obligations.FlagLayoutChangesNoRun := by
  intro cfg layout hcfg hlayout s₁ s₂ h k
  have hcfg' : Config.Legal { cfg with flagBit := layout } := ⟨hcfg.opc_injective, hlayout⟩
  rw [sameUpToLayout_iff] at h ⊢
  exact h.runFor trivial hcfg hcfg' rfl rfl k

/-- Settles O33: the simulation of one machine by itself with the carry alone related. -/
theorem onlyTheCarryInfluencesARun : Obligations.OnlyTheCarryInfluencesARun := by
  intro cfg hcfg s₁ s₂ h k
  rw [sameUpToOtherFlags_iff] at h ⊢
  exact h.runFor (F := fun f => f = .carry) rfl hcfg hcfg rfl rfl k

/-- From any state a run keeps X, Y and SP. -/
theorem sameInert_runFor (cfg : Config) (k : Nat) (s : State) : SameInert s (runFor cfg k s) := by
  refine runFor_invariant (I := SameInert s) (fun t ⟨hx, hy, hsp⟩ => ?_) k ⟨rfl, rfl, rfl⟩
  obtain ⟨hx', hy', hsp'⟩ := effect_inert cfg (fetchInstr cfg t) t
  exact ⟨hx'.trans hx, hy'.trans hy, hsp'.trans hsp⟩

/-- Settles O47: from boot the kept values are zero. -/
theorem inertRegistersKeepTheirResetValue : Obligations.InertRegistersKeepTheirResetValue := by
  refine ⟨fun cfg image s hboot k => ?_, sameInert_runFor⟩
  obtain ⟨-, hx, hy, hsp, -, -⟩ := boot_registers hboot
  obtain ⟨hx', hy', hsp'⟩ := sameInert_runFor cfg k s
  exact ⟨hsp'.trans hsp, hx'.trans hx, hy'.trans hy⟩

/-- Settles O26, by the form of the new program counter for each instruction. -/
theorem onlyBccTransfersControl : Obligations.OnlyBccTransfersControl := by
  intro i s t h
  rw [exec_eq_effect] at h
  obtain rfl : effect standardConfig i s = t := by injection h
  have hpc := effect_pc standardConfig i s
  cases i with
  | hlt | unrecognized op => exact hpc
  | nop | clc | ldaImm imm | staAbs addr | adcImm imm | cmpImm imm =>
    exact (congrArg BitVec.toNat hpc).trans (Word.toNat_add_ofNat s.pc _)
  | bccRel rel =>
    simp only at hpc
    split at hpc
    · exact .inr ⟨rel, rfl, hpc⟩
    · exact .inl hpc

/-- Settles O28: the flags by `flag_effect`, the rest by `effect_setP_zero_congr`. -/
theorem flagTableIsExact : Obligations.FlagTableIsExact := by
  intro cfg hcfg i s
  refine ⟨fun f hf => flag_effect_of_not_written hcfg hf s, fun f hf p hp => ?_,
    fun hadc hbcc p => ?_, fun p hp => ?_⟩
  · have hnew := flagUpdate_congr s.a (c := (s.setP p).getCarry cfg) (c' := s.getCarry cfg)
      (fun hadc => State.getCarry_congr (hp hadc)) f
    obtain ⟨b, hb⟩ := Option.isSome_iff_exists.1 ((flagUpdate_isSome s.a (s.getCarry cfg) i f).2 hf)
    rw [flag_effect hcfg, flag_effect hcfg, State.setP_a, hnew, hb, Option.getD_some, Option.getD_some]
  · have hno : ¬ ReadsCarry i := fun h => h.elim (fun ⟨imm, h⟩ => hadc imm h) fun ⟨rel, h⟩ => hbcc rel h
    exact effect_setP_zero_congr rfl (State.setP_setP s 0 p) fun h => absurd h hno
  · exact effect_setP_zero_congr rfl (State.setP_setP s 0 p) fun _ => hp

/-- Settles O29: `flag_setZN` with its two values as numbers, and the use of `SetZN` by LDA and ADC. -/
theorem setZNWritesZeroAndNegative : Obligations.SetZNWritesZeroAndNegative := by
  intro cfg hcfg s v
  refine ⟨?_, ?_, fun f hz hn => ?_,
    (State.setZN_setP cfg s s.p v).trans s.setP_self, ?_, ?_, ?_⟩
  · rw [State.flag_setZN hcfg, decide_eq_zero_eq_decide_toNat]
  · rw [State.flag_setZN hcfg, getLsbD_seven_eq_decide]
  · rw [State.flag_setZN hcfg]
    cases f with
    | zero => exact absurd rfl hz
    | negative => exact absurd rfl hn
    | _ => rfl
  · rw [effect, ldaImmEffect, State.setA_setZN, State.advance_p, State.setA_p]
  · rw [effect, adcImmEffect, State.setA_setZN]; rfl
  · exact flag_effect_of_not_written hcfg (by simp [flagsWritten]) s

/-- Settles O31: an inert flag is kept by every effect, and boot gives it the value in `P_RESET`. -/
theorem inertFlagsKeepTheirResetValue : Obligations.InertFlagsKeepTheirResetValue := by
  intro cfg hcfg image s hboot k f hf
  obtain ⟨-, -, -, -, -, hp⟩ := boot_registers hboot
  refine runFor_invariant (I := fun t => t.flag cfg f = readFlag cfg f cfg.pReset) (fun t ht => ?_) k
    (congrArg (readFlag cfg f) hp)
  rw [flag_effect_of_not_written hcfg (not_written_of_inert hf _), ht]

/-- Settles O42: the emission of a step by `effect_out`, the bound by induction on the steps. -/
theorem outputOnlyGrows : Obligations.OutputOnlyGrows := by
  refine ⟨fun cfg s t h => ?_, fun cfg k s => ?_⟩
  · obtain ⟨-, rfl⟩ := stepWith_eq_some.1 h
    exact effect_out cfg _ s
  · induction k generalizing s with
    | zero => exact ⟨[], by simp⟩
    | succ k ih =>
      by_cases hr : s.run = .running
      · obtain ⟨bytes, hout, hlen⟩ := ih (effect cfg (fetchInstr cfg s) s)
        have hone : (if fetchInstr cfg s = .staAbs ioPort then [s.a] else []).length ≤ 1 := by
          split <;> simp
        rw [runFor_succ_running hr, hout, effect_out, List.append_assoc]
        refine ⟨_, rfl, ?_⟩
        rw [List.length_append]; omega
      · exact ⟨[], by simp [runFor_terminal hr]⟩

/-- Settles O48. -/
theorem resetZeroesTheRegisters : Obligations.ResetZeroesTheRegisters := by
  intro cfg image s h
  obtain ⟨ha, hx, hy, hsp, hpc, -⟩ := boot_registers h
  exact ⟨ha, hx, hy, hsp, hpc⟩

/-- Settles O30: a flag reads as it was last assigned. -/
theorem flagsAreIndependent : Obligations.FlagsAreIndependent := by
  intro cfg hcfg s f b
  refine ⟨?_, fun g hg => ?_,
    (State.assign_setP cfg s s.p f b).trans s.setP_self, ?_, ?_⟩
  · rw [State.flag_assign hcfg, if_pos rfl]
  · rw [State.flag_assign hcfg, if_neg hg]
  · simp [State.getCarry, State.setCarry, State.flag_assign hcfg]
  · simp [State.getCarry, State.clearCarry, State.flag_assign hcfg]

/-- Settles O45: memory is empty and the core is running. -/
theorem resetMeetsTheInvariant : Obligations.ResetMeetsTheInvariant :=
  ⟨State.reset_mem_wf, trivial⟩

end Sys2Proof.Machine

/-! PROOFS about memory and the port (spec 20_memory.md). First the formats and memory as data, then what
an effect does to memory, the fetch and the run status, then two states that differ in the byte at the
port, then the obligations. -/

namespace Sys2Proof

/-! ### Formats -/

theorem Instr.length_pos (i : Instr) : 0 < i.length := by
  unfold Instr.length
  split <;> omega

theorem length_assemble (o : Opcode) (b1 b2 : Byte) :
    (assemble o b1 b2).length = 1 + o.mode.operandWidth := by
  rw [Instr.length, opcode?_assemble]

/-- The operand bytes outside an operation's format are not looked at (30_encoding.md R71 to R76). -/
theorem assemble_congr {o : Opcode} {b1 b2 c1 c2 : Byte} (h1 : 1 ≤ o.mode.operandWidth → b1 = c1)
    (h2 : 2 ≤ o.mode.operandWidth → b2 = c2) : assemble o b1 b2 = assemble o c1 c2 := by
  cases o with
  | hlt | nop | clc => rfl
  | ldaImm | adcImm | cmpImm | bcc => rw [h1 (by decide)]; rfl
  | staAbs => rw [h1 (by decide), h2 (by decide)]

end Sys2Proof

namespace Sys2Proof.Machine

/-! ### Memory as data -/

/-- In a canonical memory a listed cell is what its address reads as. -/
theorem Memory.read_of_mem {m : Memory} (hm : m.Pairwise fun c d => c.1 < d.1) {c : Host.Cell}
    (hc : c ∈ m) : m.read c.1 = c.2 := by
  induction m with
  | nil => cases hc
  | cons d m ih =>
    obtain ⟨hd, hm⟩ := List.pairwise_cons.1 hm
    rw [Memory.read_cons]
    rcases List.mem_cons.1 hc with rfl | hc
    · exact if_pos rfl
    · rw [if_neg (hd c hc).ne, ih hm hc]

/-- What an address reads as is listed there, if it is not zero. -/
theorem Memory.mem_of_read_ne_zero {m : Memory} {addr : Nat} (h : m.read addr ≠ 0) :
    (addr, m.read addr) ∈ m := by
  induction m with
  | nil => exact absurd (Memory.read_nil addr) h
  | cons d m ih =>
    obtain ⟨k, b⟩ := d
    rw [Memory.read_cons] at h ⊢
    by_cases hk : k = addr
    · simp [hk]
    · rw [if_neg hk] at h ⊢
      exact List.mem_cons_of_mem _ (ih h)

/-- The cells of a canonical memory are the non-zero bytes it reads as. -/
theorem Memory.mem_iff_read {m : Memory} (hm : m.wf) {c : Host.Cell} :
    c ∈ m ↔ c.1 < memorySize ∧ c.2 ≠ 0 ∧ m.read c.1 = c.2 := by
  constructor
  · exact fun hc => ⟨(hm.2 c hc).1, (hm.2 c hc).2, Memory.read_of_mem hm.1 hc⟩
  · rintro ⟨-, hne, hread⟩
    have hmem := Memory.mem_of_read_ne_zero (hread ▸ hne)
    rwa [hread] at hmem

theorem Memory.erase_erase (m : Memory) (addr : Nat) : (m.erase addr).erase addr = m.erase addr := by
  simp [Memory.erase]

theorem Memory.erase_insert (m : Memory) (addr : Nat) (v : Byte) :
    (m.insert addr v).erase addr = m.erase addr := by
  induction m with
  | nil => simp [Memory.insert, Memory.erase]
  | cons d m ih =>
    obtain ⟨k, b⟩ := d
    rw [Memory.insert]
    split
    · rw [Memory.erase_cons, if_pos rfl]
    · rw [Memory.erase_cons, Memory.erase_cons, ih]

/-- A write leaves nothing of an earlier write to the same address. -/
theorem Memory.write_write (m : Memory) (addr : Nat) (v w : Byte) :
    (m.write addr v).write addr w = m.write addr w := by
  have herase : (m.write addr v).erase addr = m.erase addr := by
    rw [Memory.write]
    split
    · exact Memory.erase_erase m addr
    · rw [Memory.erase_insert, Memory.erase_erase]
  rw [Memory.write, herase, Memory.write]

theorem State.poke_poke (s : State) (addr : Word) (v w : Byte) :
    (s.poke addr v).poke addr w = s.poke addr w :=
  congrArg s.setMem (Memory.write_write s.mem addr.toNat v w)

/-- A byte write when the port does not store (decision D9). -/
theorem State.readByte_writeByte_of_not_stores {cfg : Config} (hstores : cfg.portStores = false) (s : State)
    (addr : Word) (v : Byte) (other : Word) :
    (s.writeByte cfg addr v).readByte other
      = if other = ioPort then s.readByte other else if other = addr then v else s.readByte other := by
  rw [State.readByte_writeByte, hstores]
  by_cases haddr : other = addr
  · subst haddr
    by_cases hport : other = ioPort <;> simp [hport]
  · simp [haddr]

/-! ### What an effect does to memory -/

/-- All that an instruction does to what memory reads as (20_memory.md R52, R66). -/
theorem readByte_effect (cfg : Config) (i : Instr) (s : State) (addr : Word) :
    (effect cfg i s).readByte addr
      = if i = .staAbs addr ∧ (addr = ioPort → cfg.portStores = true) then s.a else s.readByte addr := by
  by_cases hi : ∃ target, i = .staAbs target
  · obtain ⟨target, rfl⟩ := hi
    have hsta : (effect cfg (.staAbs target) s).readByte addr
        = (s.writeByte cfg target s.a).readByte addr := rfl
    rw [hsta, State.readByte_writeByte]
    by_cases h : addr = target
    · simp [h]
    · simp [h, Ne.symm h]
  · rw [if_neg fun h => hi ⟨addr, h.1⟩, State.readByte,
      (effect_mem_of_not_sta cfg (fun target h => hi ⟨target, h⟩) s).1, State.readByte]

/-- Every effect keeps the canonical form of memory. -/
theorem effect_mem_wf (cfg : Config) (i : Instr) {s : State} (h : s.mem.wf) : (effect cfg i s).mem.wf := by
  by_cases hi : ∃ target, i = .staAbs target
  · obtain ⟨target, rfl⟩ := hi
    exact State.writeByte_wf cfg target s.a h
  · rwa [(effect_mem_of_not_sta cfg (fun target h => hi ⟨target, h⟩) s).1]

/-! ### The fetch -/

/-- A running core executes the instruction it fetches. -/
theorem step_running {s : State} (h : s.run = .running) : step s = exec (fetchInstr standardConfig s) s := by
  simp [step, h, stopReason]

/-- Only an unrecognized opcode byte is fetched as the catch-all, which carries it. -/
theorem fetchInstr_eq_unrecognized {cfg : Config} {s : State} {op : Byte}
    (h : fetchInstr cfg s = .unrecognized op) : op = s.fetchOpcode ∧ opcodeOf cfg op = none := by
  have hnone : opcodeOf cfg s.fetchOpcode = none := by rw [← opcode?_fetchInstr, h]; rfl
  rw [fetchInstr_unrecognized hnone] at h
  injection h with hop
  exact ⟨hop.symm, hop ▸ hnone⟩

/-- The decoder reads from the three bytes at the program counter what the core fetches. -/
theorem decode_bytes_at_pc (cfg : Config) (s : State) :
    ∃ rest, decode cfg [s.readByte s.pc, s.readByte (s.pc + 1), s.readByte (s.pc + 2)]
      = .ok (fetchInstr cfg s, rest) := by
  cases h : opcodeOf cfg s.fetchOpcode with
  | none => exact ⟨_, by rw [fetchInstr_unrecognized h, decode, ← State.fetchOpcode, h]⟩
  | some o =>
    have hwidth : ¬ 2 < o.mode.operandWidth := by cases o <;> decide
    exact ⟨_, by rw [fetchInstr_recognized h, decode, ← State.fetchOpcode, h]; exact if_neg hwidth⟩

/-- The three bytes at the program counter, once a table word is placed there, are the word's. -/
theorem tableBytes_eq_bytes_at_pc (s : State) (nbits w : Nat) :
    tableBytes nbits w = [(s.withFetchWord nbits w).readByte s.pc,
      (s.withFetchWord nbits w).readByte (s.pc + 1), (s.withFetchWord nbits w).readByte (s.pc + 2)] := by
  have hlen : (tableBytes nbits w).length = 3 := rfl
  have hread (k : Nat) (hk : k < 3) : (s.withFetchWord nbits w).readByte (s.pc + BitVec.ofNat 16 k)
      = (tableBytes nbits w).getD k 0 := by
    have hoff : (s.pc + BitVec.ofNat 16 k - s.pc).toNat = k := by
      rw [add_sub_cancel_left, BitVec.toNat_ofNat]; omega
    rw [State.withFetchWord, State.placeAtPc, State.readByte_setRun,
      State.readByte_pokeAll _ _ _ (by rw [hlen]; decide), hoff, hlen, if_pos hk]
  have h0 := hread 0 (by decide)
  have h1 := hread 1 (by decide)
  have h2 := hread 2 (by decide)
  rw [BitVec.add_zero] at h0
  simp only [BitVec.ofNat_eq_ofNat, h0, h1, h2]
  rfl

/-! ### The run status -/

/-- The run status that a step leaves is explained by memory: HLT and an unrecognized opcode move
neither the PC nor memory, and the other instructions leave the core running. -/
theorem statusMatchesMemory_effect {s : State} (hrun : s.run = .running) :
    StatusMatchesMemory (effect standardConfig (fetchInstr standardConfig s) s) := by
  have hstatus := effect_run standardConfig (fetchInstr standardConfig s) s
  cases hi : fetchInstr standardConfig s with
  | hlt =>
    have hop : opcodeOf standardConfig s.fetchOpcode = some .hlt := by rw [← opcode?_fetchInstr, hi]; rfl
    exact hop
  | unrecognized op => exact ⟨rfl, fetchInstr_eq_unrecognized hi⟩
  | _ =>
    rw [hi] at hstatus
    rw [StatusMatchesMemory, hstatus.trans hrun]
    trivial

/-! ### Two states that differ in the byte at the port -/

section
variable (cfg : Config) (s : State) (m : Memory)

theorem State.setMem_setMem (m' : Memory) : (s.setMem m).setMem m' = s.setMem m' := rfl
theorem State.setA_setMem (v : Byte) : (s.setA v).setMem m = (s.setMem m).setA v := rfl
theorem State.advance_setMem (n : Nat) : (s.advance n).setMem m = (s.setMem m).advance n := rfl

theorem State.ite_setMem (c : Prop) [Decidable c] (t u : State) :
    (if c then t else u).setMem m = if c then t.setMem m else u.setMem m :=
  apply_ite (fun t : State => t.setMem m) c t u

theorem State.getCarry_setMem : (s.setMem m).getCarry cfg = s.getCarry cfg := rfl

theorem State.setZN_setMem (v : Byte) : (s.setZN cfg v).setMem m = (s.setMem m).setZN cfg v := by
  unfold State.setZN
  split <;> split <;> rfl

theorem State.compareFlags_setMem (v : Byte) :
    (s.compareFlags cfg v).setMem m = (s.setMem m).compareFlags cfg v := by
  rw [State.compareFlags, State.ite_setMem, State.ite_setMem]
  rfl

/-- Outside memory a byte write is an emission at the port and nothing elsewhere. -/
theorem State.writeByte_setMem (addr : Word) (v : Byte) :
    (s.writeByte cfg addr v).setMem m = if addr = ioPort then (s.setMem m).emit v else s.setMem m := by
  unfold State.writeByte
  split
  · split <;> rfl
  · rfl

/-- Outside memory an effect does not depend on memory. -/
theorem effect_setMem (i : Instr) (m' : Memory) :
    (effect cfg i (s.setMem m)).setMem m' = (effect cfg i s).setMem m' := by
  cases i with
  | hlt | nop | clc | unrecognized op => rfl
  | ldaImm imm =>
    simp only [effect, ldaImmEffect, State.advance_setMem, State.setZN_setMem, State.setA_setMem,
      State.setMem_setMem]
  | staAbs addr =>
    simp only [effect, staAbsEffect, State.advance_setMem, State.writeByte_setMem, State.setMem_setMem,
      State.setMem_a]
  | adcImm imm =>
    simp only [effect, adcImmEffect, State.advance_setMem, State.setZN_setMem, State.setA_setMem,
      State.setMem_setMem, State.setMem_a, State.getCarry_setMem]
  | cmpImm imm =>
    simp only [effect, cmpImmEffect, State.advance_setMem, State.compareFlags_setMem, State.setMem_setMem]
  | bccRel rel =>
    simp only [effect, bccRelEffect, State.ite_setMem]
    rfl

/-- Outside memory an effect does not depend on whether the port stores: only STA asks. -/
theorem effect_portStores (stores : Bool) (i : Instr) :
    (effect { cfg with portStores := stores } i s).setMem m = (effect cfg i s).setMem m := by
  cases i with
  | staAbs addr => simp only [effect, staAbsEffect, State.advance_setMem, State.writeByte_setMem]
  | _ => rfl

end

section
variable {cfg : Config} {s₁ s₂ : State}

theorem SameUpToPortByte.fields_eq (h : SameUpToPortByte s₁ s₂) :
    s₁.pc = s₂.pc ∧ s₁.a = s₂.a ∧ s₁.run = s₂.run :=
  ⟨by simpa using congrArg State.pc h.1, by simpa using congrArg State.a h.1,
    by simpa using congrArg State.run h.1⟩

/-- One instruction keeps the two states equal but for the byte at the port. -/
theorem SameUpToPortByte.effect (h : SameUpToPortByte s₁ s₂) (stores : Bool) (i : Instr) :
    SameUpToPortByte (effect cfg i s₁) (effect { cfg with portStores := stores } i s₂) := by
  obtain ⟨-, ha, -⟩ := h.fields_eq
  obtain ⟨hrest, hread⟩ := h
  constructor
  · calc (Machine.effect cfg i s₁).setMem []
        = (Machine.effect cfg i (s₁.setMem [])).setMem [] := (effect_setMem cfg s₁ [] i []).symm
      _ = (Machine.effect cfg i (s₂.setMem [])).setMem [] := by rw [hrest]
      _ = (Machine.effect cfg i s₂).setMem [] := effect_setMem cfg s₂ [] i []
      _ = (Machine.effect { cfg with portStores := stores } i s₂).setMem [] :=
        (effect_portStores cfg s₂ [] stores i).symm
  · intro addr hport
    rw [readByte_effect, readByte_effect, ha, hread addr hport]
    simp [hport]

/-- Both fetch the same instruction, if no byte of it lies at the port. -/
theorem SameUpToPortByte.fetchInstr_eq (h : SameUpToPortByte s₁ s₂) (hfetch : FetchAvoidsPort cfg s₁) :
    fetchInstr cfg s₁ = fetchInstr cfg s₂ := by
  obtain ⟨hpc, -, -⟩ := h.fields_eq
  have hread (k : Nat) (hk : k < (fetchInstr cfg s₁).length) :
      s₁.readByte (s₁.pc + BitVec.ofNat 16 k) = s₂.readByte (s₂.pc + BitVec.ofNat 16 k) :=
    hpc ▸ h.2 _ (hfetch k hk)
  have hop : s₁.fetchOpcode = s₂.fetchOpcode := by
    have h0 := hread 0 (Instr.length_pos _)
    rwa [BitVec.add_zero, BitVec.add_zero] at h0
  cases ho : opcodeOf cfg s₁.fetchOpcode with
  | none => rw [fetchInstr_unrecognized ho, fetchInstr_unrecognized (hop ▸ ho), hop]
  | some o =>
    rw [fetchInstr_recognized ho, length_assemble] at hread
    rw [fetchInstr_recognized ho, fetchInstr_recognized (hop ▸ ho)]
    exact assemble_congr (fun hw => hread 1 (by omega)) fun hw => hread 2 (by omega)

end

/-! ### The obligations -/

/-- Settles O44: `effect_mem_wf` and `statusMatchesMemory_effect`. -/
theorem stepKeepsTheInvariant : Obligations.StepKeepsTheInvariant := by
  intro s t ⟨hmem, _⟩ h
  obtain ⟨hrun, rfl⟩ := step_eq_next.1 h
  exact ⟨effect_mem_wf _ _ hmem, statusMatchesMemory_effect hrun⟩

/-- Settles O7: the decoder reads the placed word as the core fetches it. -/
theorem placedWordIsTheOneThatRuns : Obligations.PlacedWordIsTheOneThatRuns := by
  intro s nbits w i h
  have hpc : (s.withFetchWord nbits w).pc = s.pc := by
    obtain ⟨m, hm⟩ := State.pokeAll_rest s s.pc (tableBytes nbits w)
    rw [State.withFetchWord, State.placeAtPc, hm]; rfl
  obtain ⟨rest, hdecode⟩ := decode_bytes_at_pc standardConfig (s.withFetchWord nbits w)
  rw [hpc, ← tableBytes_eq_bytes_at_pc] at hdecode
  rw [decodeTableWord, hdecode] at h
  obtain rfl : fetchInstr standardConfig (s.withFetchWord nbits w) = i := by injection h
  exact step_running rfl

/-- Settles O34: the cases of `readByte_writeByte`. -/
theorem memoryRoundTrips : Obligations.MemoryRoundTrips := by
  refine fun cfg s addr =>
    ⟨fun v hport => ?_, fun w hlo hhi => ?_, fun v hstores => ?_, fun v other hother => ?_⟩
  · simp [State.readByte_writeByte, hport]
  · have hne := Word.add_one_ne addr
    rw [State.readWord, State.writeWord]
    generalize addr + 1 = next at hhi hne
    simp [State.readByte_writeByte, hlo, hhi, hne.symm, mkWord_bytes]
  · simp [State.readByte_writeByte, hstores]
  · rw [State.readByte_writeByte, if_neg fun h => hother h.1]

/-- Settles O36: what each of the two byte writes does to the output and to memory. -/
theorem wordWriteDecodesEachByte : Obligations.WordWriteDecodesEachByte := by
  intro cfg s addr w hstores
  constructor
  · rw [State.writeWord, State.writeByte_out, State.writeByte_out]
    split <;> split <;> simp
  · intro other
    have hne := Word.add_one_ne addr
    rw [State.writeWord]
    generalize addr + 1 = next at hne
    rw [State.readByte_writeByte_of_not_stores hstores, State.readByte_writeByte_of_not_stores hstores]
    by_cases hlo : other = addr
    · simp [hlo, hne.symm]
    · split_ifs <;> rfl

/-- Settles O37: off the port by `poke_poke`. -/
theorem writesAreIdempotentButAtThePort : Obligations.WritesAreIdempotentButAtThePort := by
  refine fun cfg s v => ⟨fun addr hport => ?_, ?_⟩
  · have hpoke (t : State) : t.writeByte cfg addr v = t.poke addr v := if_neg hport
    rw [hpoke, hpoke, State.poke_poke]
  · simp [State.writeByte_out]

/-- Settles O38: rising lists with the same cells are equal, and a canonical memory's cells are
what it reads as. -/
theorem canonicalMemoriesAreEqualWhenTheyReadAlike :
    Obligations.CanonicalMemoriesAreEqualWhenTheyReadAlike := by
  intro m₁ m₂ hm₁ hm₂ hread
  have hmem (c : Host.Cell) : c ∈ m₁ ↔ c ∈ m₂ := by
    rw [Memory.mem_iff_read hm₁, Memory.mem_iff_read hm₂]
    refine and_congr_right fun hlt => ?_
    have hc : m₁.read c.1 = m₂.read c.1 := hread (BitVec.ofNatLT c.1 hlt)
    rw [hc]
  have : Std.Irrefl fun c d : Host.Cell => c.1 < d.1 := ⟨fun c => lt_irrefl c.1⟩
  exact hm₁.1.eq_of_mem_iff hm₂.1 hmem

/-- Settles O39, by the one case in which `readByte_effect` changes a byte. -/
theorem onlyStaChangesMemory : Obligations.OnlyStaChangesMemory := by
  intro s t addr h hchange
  obtain ⟨-, rfl⟩ := step_eq_next.1 h
  rw [readByte_effect] at hchange ⊢
  by_cases hsta : fetchInstr standardConfig s = .staAbs addr ∧
      (addr = ioPort → standardConfig.portStores = true)
  · rw [if_pos hsta]
    exact ⟨hsta.1, fun hport => absurd (hsta.2 hport) (by decide), rfl⟩
  · exact absurd (if_neg hsta) hchange

/-- Settles O40: the stored byte is the accumulator, and the fetch after the step reads it. -/
theorem storeIsSeenByTheNextFetch : Obligations.StoreIsSeenByTheNextFetch := by
  intro s t addr h hfetch hport
  obtain ⟨-, rfl⟩ := step_eq_next.1 h
  have hstored := readByte_effect standardConfig (fetchInstr standardConfig s) s addr
  rw [if_pos ⟨hfetch, fun h => absurd h hport⟩] at hstored
  generalize effect standardConfig (fetchInstr standardConfig s) s = t at hstored ⊢
  refine ⟨fun hpc => ?_, fun hpc o ho => ?_, fun hpc ho => ?_⟩
  · have hop : t.fetchOpcode = s.a := by rw [State.fetchOpcode, hpc, hstored]
    cases ho : opcodeOf standardConfig s.a with
    | none => exact (fetchInstr_unrecognized (hop ▸ ho)).trans (congrArg Instr.unrecognized hop)
    | some o => exact fetchInstr_recognized (hop ▸ ho)
  · rw [fetchInstr_recognized ho, State.operandByte, hpc, hstored]
  · rw [fetchInstr_recognized ho, hpc, hstored]; rfl

/-- Settles O41: no effect changes the byte at the port. -/
theorem portByteNeverChanges : Obligations.PortByteNeverChanges := by
  intro cfg hstores k s
  refine runFor_invariant (I := fun t => t.readByte ioPort = s.readByte ioPort) (fun t ht => ?_) k rfl
  simp [readByte_effect, hstores, ht]

/-- Settles O43: the two machines fetch the same instruction, whose effects stay related. -/
theorem portStoringMattersOnlyToFetchesFromThePort :
    Obligations.PortStoringMattersOnlyToFetchesFromThePort := by
  intro cfg stores s₁ s₂ h hfetch
  obtain ⟨-, -, hrun⟩ := h.fields_eq
  by_cases hr : s₁.run = .running
  · have hsame : fetchInstr { cfg with portStores := stores } s₂ = fetchInstr cfg s₁ :=
      (fetchInstr_congr rfl rfl).trans (h.fetchInstr_eq hfetch).symm
    rw [stepWith_running hr, stepWith_running (hrun ▸ hr), hsame]
    exact h.effect stores _
  · rw [stepWith_terminal hr, stepWith_terminal (hrun ▸ hr)]
    trivial

/-- Settles O8. -/
theorem everyInstructionCompletes : Obligations.EveryInstructionCompletes :=
  ⟨fun i s => ⟨_, exec_eq_effect i s⟩, fun _ hrun => ⟨_, step_eq_next.2 ⟨hrun, rfl⟩⟩⟩

/-- Settles O35. -/
theorem wordReadIsLittleEndian : Obligations.WordReadIsLittleEndian := by
  have hread (s : State) (addr : Word) : (s.readWord addr).toNat
      = 256 * (s.readByte (addr + 1)).toNat + (s.readByte addr).toNat := by
    rw [State.toNat_readWord, Nat.mul_comm]
  exact ⟨hread, fun s => hread s 0xFFFF⟩

end Sys2Proof.Machine

/-! PROOFS about the encoding (spec 30_encoding.md). First what the instructions, the encoder and the
decoder are in terms of the operation and its operand bytes, then the assembler's branch offset, then the
obligations. -/

namespace Sys2Proof

/-! ### Instructions by their operation -/

theorem AddressingMode.operandWidth_le_two (m : AddressingMode) : m.operandWidth ≤ 2 := by
  cases m <;> decide

/-- Only the catch-all row belongs to no operation. -/
theorem eq_unrecognized_of_opcode? {i : Instr} (h : i.opcode? = none) : ∃ op, i = .unrecognized op := by
  cases i with
  | unrecognized op => exact ⟨op, rfl⟩
  | _ => cases h

/-- Every other instruction is its operation with some operand bytes. -/
theorem eq_assemble_of_opcode? {i : Instr} {o : Opcode} (h : i.opcode? = some o) :
    ∃ b1 b2, i = assemble o b1 b2 := by
  cases i with
  | hlt | nop | clc => cases h; exact ⟨0, 0, rfl⟩
  | ldaImm b | adcImm b | cmpImm b | bccRel b => cases h; exact ⟨b, 0, rfl⟩
  | staAbs addr =>
    cases h
    exact ⟨loByte addr, hiByte addr, congrArg Instr.staAbs (mkWord_bytes addr).symm⟩
  | unrecognized op => cases h

theorem wf_assemble (cfg : Config) (o : Opcode) (b1 b2 : Byte) : (assemble o b1 b2).wf cfg = true := by
  cases o <;> rfl

/-- The catch-all row is well formed exactly with a byte the opcode map does not find (R79). -/
theorem wf_unrecognized {cfg : Config} {op : Byte} :
    (Instr.unrecognized op).wf cfg = true ↔ opcodeOf cfg op = none := by
  simp [Instr.wf, opcodeOf_eq_none, Opcode.mem_all]

/-- The encoding is the opcode byte and as many operand bytes as the format has (R71 to R73). -/
theorem encode_assemble (cfg : Config) (o : Opcode) (b1 b2 : Byte) :
    encode cfg (assemble o b1 b2) = cfg.opc o :: [b1, b2].take o.mode.operandWidth := by
  cases o with
  | staAbs => simp [assemble, encode, loByte_mkWord, hiByte_mkWord, Opcode.mode, AddressingMode.operandWidth]
  | _ => rfl

/-! ### What the decoder answers -/

/-- The decoder's answer for an opcode byte that is no value of `OPC` (R79; log entry 20). -/
theorem decode_unrecognized {cfg : Config} {op : Byte} (h : opcodeOf cfg op = none) (rest : List Byte) :
    decode cfg (op :: rest) = .ok (.unrecognized op, rest) := by
  simp [decode, h]

/-- The decoder's answer for the opcode byte of an operation whose operand bytes are there. -/
theorem decode_recognized {cfg : Config} {op : Byte} {o : Opcode} (h : opcodeOf cfg op = some o)
    {rest : List Byte} (hlen : o.mode.operandWidth ≤ rest.length) :
    decode cfg (op :: rest)
      = .ok (assemble o (rest.getD 0 0) (rest.getD 1 0), rest.drop o.mode.operandWidth) := by
  simp [decode, h, Nat.not_lt.2 hlen]

/-- These two are the only ways in which decoding gives an instruction. -/
theorem decode_cases {cfg : Config} {bytes rest : List Byte} {i : Instr}
    (h : decode cfg bytes = .ok (i, rest)) :
    (∃ op, opcodeOf cfg op = none ∧ bytes = op :: rest ∧ i = .unrecognized op) ∨
    ∃ op o tail, opcodeOf cfg op = some o ∧ o.mode.operandWidth ≤ tail.length ∧ bytes = op :: tail ∧
      i = assemble o (tail.getD 0 0) (tail.getD 1 0) ∧ rest = tail.drop o.mode.operandWidth := by
  cases bytes with
  | nil => cases h
  | cons op tail =>
    cases ho : opcodeOf cfg op with
    | none =>
      rw [decode_unrecognized ho] at h
      cases h
      exact .inl ⟨op, ho, rfl, rfl⟩
    | some o =>
      by_cases hlen : o.mode.operandWidth ≤ tail.length
      · rw [decode_recognized ho hlen] at h
        cases h
        exact .inr ⟨op, o, tail, ho, hlen, rfl, rfl, rfl⟩
      · simp [decode, ho, Nat.lt_of_not_le hlen] at h

/-- The opcode byte alone selects the operation decoded (R78). -/
theorem opcode?_of_decode {cfg : Config} {op : Byte} {tail rest : List Byte} {i : Instr}
    (h : decode cfg (op :: tail) = .ok (i, rest)) : i.opcode? = opcodeOf cfg op := by
  obtain ⟨_, ho, hbytes, rfl⟩ | ⟨_, o, _, ho, -, hbytes, rfl, -⟩ := decode_cases h
  · cases hbytes; exact ho.symm
  · cases hbytes; rw [ho, opcode?_assemble]

/-- Decoding answers the catch-all row exactly for the bytes the opcode map does not find. -/
theorem opcodeOf_eq_none_iff_decode {cfg : Config} {op : Byte} :
    opcodeOf cfg op = none ↔ ∀ rest, decode cfg (op :: rest) = .ok (.unrecognized op, rest) :=
  ⟨decode_unrecognized, fun h => (opcode?_of_decode (h [])).symm⟩

/-- The decoder undoes the encoding of a recognised operation with any operand bytes. -/
theorem decode_encode_assemble {cfg : Config} (hcfg : cfg.Legal) (o : Opcode) (b1 b2 : Byte)
    (rest : List Byte) :
    decode cfg (encode cfg (assemble o b1 b2) ++ rest) = .ok (assemble o b1 b2, rest) := by
  have hwidth : ([b1, b2].take o.mode.operandWidth).length = o.mode.operandWidth :=
    List.length_take_of_le o.mode.operandWidth_le_two
  rw [encode_assemble, List.cons_append, decode_recognized (opcodeOf_opc hcfg o) (by simp [hwidth]),
    List.drop_left' hwidth]
  cases o <;> rfl

/-- A list that holds the operand bytes of a format begins with the ones `assemble` is given. -/
theorem take_pair_getD (tail : List Byte) {n : Nat} (hn : n ≤ 2) (hlen : n ≤ tail.length) :
    [tail.getD 0 0, tail.getD 1 0].take n = tail.take n := by
  match n, tail with
  | 0, _ => rfl
  | 1, _ :: _ => rfl
  | 2, _ :: _ :: _ => rfl

/-! ### The assembler's branch offset -/

/-- A word in the signed range of a byte has its low byte's signed value. -/
theorem toInt_loByte {d : Word} (hlow : -128 ≤ d.toInt) (hhigh : d.toInt ≤ 127) :
    (loByte d).toInt = d.toInt := by
  rw [loByte, ← BitVec.setWidth_eq_extractLsb' (by decide),
    ← BitVec.signExtend_eq_setWidth_of_le d (by decide),
    BitVec.toInt_signExtend_eq_toInt_bmod_of_le d (by decide)]
  exact Int.bmod_eq_of_le (by omega) (by omega)

/-- The words in the signed range of a byte are the sign extensions of their low bytes (00_scope.md R7). -/
theorem sext16_eq_iff {d : Word} {b : Byte} :
    Machine.sext16 b = d ↔ (-128 ≤ d.toInt ∧ d.toInt ≤ 127) ∧ loByte d = b := by
  constructor
  · rintro rfl
    obtain ⟨hlow, hhigh⟩ : -128 ≤ (Machine.sext16 b).toInt ∧ (Machine.sext16 b).toInt ≤ 127 := by
      rw [Machine.toInt_sext16]
      exact ⟨b.le_toInt, Int.le_of_lt_add_one b.toInt_lt⟩
    exact ⟨⟨hlow, hhigh⟩, BitVec.eq_of_toInt_eq ((toInt_loByte hlow hhigh).trans (Machine.toInt_sext16 b))⟩
  · rintro ⟨⟨hlow, hhigh⟩, rfl⟩
    exact BitVec.eq_of_toInt_eq ((Machine.toInt_sext16 _).trans (toInt_loByte hlow hhigh))

/-! ### The obligations -/

/-- Settles O1: an instruction is an operation with operand bytes, or the catch-all row with a byte that
the opcode map does not find. -/
theorem decodeInvertsEncode : Obligations.DecodeInvertsEncode := by
  intro cfg hcfg i hwf rest
  cases ho : i.opcode? with
  | none =>
    obtain ⟨op, rfl⟩ := eq_unrecognized_of_opcode? ho
    exact decode_unrecognized (wf_unrecognized.1 hwf) rest
  | some o =>
    obtain ⟨b1, b2, rfl⟩ := eq_assemble_of_opcode? ho
    exact decode_encode_assemble hcfg o b1 b2 rest

/-- Settles O2, by the two ways in which decoding gives an instruction. -/
theorem encodeInvertsDecode : Obligations.EncodeInvertsDecode := by
  intro cfg bytes i rest h
  obtain ⟨op, ho, rfl, rfl⟩ | ⟨op, o, tail, ho, hlen, rfl, rfl, rfl⟩ := decode_cases h
  · exact ⟨rfl, wf_unrecognized.2 ho⟩
  · refine ⟨?_, wf_assemble cfg o _ _⟩
    rw [encode_assemble, take_pair_getD tail o.mode.operandWidth_le_two hlen, opc_of_opcodeOf ho,
      List.cons_append, List.take_append_drop]

/-- Settles O3: after the opcode byte, two bytes are enough for every format. -/
theorem decodeTakesTheLength : Obligations.DecodeTakesTheLength := by
  intro cfg bytes hlen
  obtain _ | ⟨op, tail⟩ := bytes
  · cases hlen
  suffices h : ∃ i : Instr, decode cfg (op :: tail) = .ok (i, (op :: tail).drop i.length) by
    obtain ⟨i, hi⟩ := h
    exact ⟨i, hi, fun _ _ hbytes => by cases hbytes; exact opcode?_of_decode hi⟩
  cases ho : opcodeOf cfg op with
  | none => exact ⟨_, decode_unrecognized ho tail⟩
  | some o =>
    have hwidth : o.mode.operandWidth ≤ tail.length :=
      o.mode.operandWidth_le_two.trans (Nat.le_of_succ_le_succ hlen)
    refine ⟨assemble o (tail.getD 0 0) (tail.getD 1 0), ?_⟩
    rw [decode_recognized ho hwidth, length_assemble, Nat.add_comm, List.drop_succ_cons]

/-- Settles O4: the eight bytes listed are the values of the default map. -/
theorem otherBytesAreUnrecognized : Obligations.OtherBytesAreUnrecognized := by
  have hany (cfg : Config) (op : Byte) : (∀ o, cfg.opc o ≠ op) ↔
      ∀ rest, decode cfg (op :: rest) = .ok (.unrecognized op, rest) :=
    opcodeOf_eq_none.symm.trans opcodeOf_eq_none_iff_decode
  refine ⟨hany, fun op => Iff.trans ?_ (hany standardConfig op)⟩
  have hperm : [0x00#8, 0x18#8, 0x69#8, 0x8D#8, 0x90#8, 0xA9#8, 0xC9#8, 0xEA#8].Perm
      (Opcode.all.map standardConfig.opc) := by decide
  rw [hperm.mem_iff]
  simp [Opcode.mem_all]

/-- Settles O51: both sides say that the distance from the next instruction is the offset, sign-extended. -/
theorem assemblerOffsetIsTheBranchOffset : Obligations.AssemblerOffsetIsTheBranchOffset := by
  intro pc target rel
  calc relFor pc target = some rel
    _ ↔ (-128 ≤ branchDistance pc target ∧ branchDistance pc target ≤ 127)
        ∧ loByte (target - (pc + 2)) = rel := by simp [relFor]
    _ ↔ Machine.sext16 rel = target - (pc + 2) := sext16_eq_iff.symm
    _ ↔ Machine.branchTarget pc rel = target := eq_sub_iff_add_eq'

end Sys2Proof

/-! PROOFS about the step and the run (spec 40_step_cycle.md). First how a step can leave the run status,
then the result of a finished run, the host's run and the branch to itself, then the obligations. -/

namespace Sys2Proof.Machine

/-! ### The run status along a run -/

/-- The three ways in which the fetched instruction can leave the run status (60_exceptions.md R142,
R145). -/
theorem effect_fetchInstr_cases (cfg : Config) (s : State) :
    (opcodeOf cfg s.fetchOpcode = none ∧
      effect cfg (fetchInstr cfg s) s = s.raiseIllegalOpcode s.fetchOpcode) ∨
    (opcodeOf cfg s.fetchOpcode = some .hlt ∧ effect cfg (fetchInstr cfg s) s = s.halt) ∨
    ∃ o : Opcode, o ≠ .hlt ∧ opcodeOf cfg s.fetchOpcode = some o ∧
      (effect cfg (fetchInstr cfg s) s).run = s.run := by
  cases ho : opcodeOf cfg s.fetchOpcode with
  | none => exact .inl ⟨rfl, by rw [fetchInstr_unrecognized ho]; rfl⟩
  | some o =>
    rw [fetchInstr_recognized ho]
    cases o with
    | hlt => exact .inr (.inl ⟨rfl, rfl⟩)
    | _ => exact .inr (.inr ⟨_, Opcode.noConfusion, rfl, effect_run cfg _ s⟩)

/-- What `StatusMatchesMemory` says at the standard parameters, for any: the core is running, or it is
halted on HLT's byte, or it reports the unrecognized byte it stands on and that byte's address. -/
def StatusMatchesFetch (cfg : Config) (s : State) : Prop :=
  s.run = .running ∨
  (s.run = .halted ∧ opcodeOf cfg s.fetchOpcode = some .hlt) ∨
  (s.run = .fault s.fetchOpcode s.pc ∧ opcodeOf cfg s.fetchOpcode = none)

/-- A core that stands on a recognised opcode other than HLT's has not stopped. -/
theorem StatusMatchesFetch.running {cfg : Config} {s : State} (h : StatusMatchesFetch cfg s) {o : Opcode}
    (ho : opcodeOf cfg s.fetchOpcode = some o) (hne : o ≠ .hlt) : s.run = .running := by
  obtain hrun | ⟨-, hhlt⟩ | ⟨-, hnone⟩ := h
  · exact hrun
  · exact absurd (Option.some.inj (ho.symm.trans hhlt)) hne
  · cases ho.symm.trans hnone

/-- The fetched instruction keeps the match: stopping moves neither the PC nor memory. -/
theorem StatusMatchesFetch.effect {cfg : Config} {s : State} (h : StatusMatchesFetch cfg s) :
    StatusMatchesFetch cfg (effect cfg (fetchInstr cfg s) s) := by
  obtain ⟨ho, heff⟩ | ⟨ho, heff⟩ | ⟨o, hne, ho, hrun⟩ := effect_fetchInstr_cases cfg s
  · rw [heff]; exact .inr (.inr ⟨rfl, ho⟩)
  · rw [heff]; exact .inr (.inl ⟨rfl, ho⟩)
  · exact .inl (hrun.trans (h.running ho hne))

/-- A running core goes on exactly from a recognised opcode other than HLT's. -/
theorem effect_fetchInstr_running_iff {cfg : Config} {s : State} (h : s.run = .running) :
    (effect cfg (fetchInstr cfg s) s).run = .running ↔
      ∃ o : Opcode, o ≠ .hlt ∧ opcodeOf cfg s.fetchOpcode = some o := by
  obtain ⟨ho, heff⟩ | ⟨ho, heff⟩ | ⟨o, hne, ho, hrun⟩ := effect_fetchInstr_cases cfg s
  · simp [heff, ho, State.raiseIllegalOpcode]
  · simp [heff, ho, State.halt]
  · exact iff_of_true (hrun.trans h) ⟨o, hne, ho⟩

/-! ### The result of a finished run -/

/-- A state has a result exactly when it is terminal, and the result is `(OUT, RUN)` (R97). -/
theorem State.result_eq_some {s : State} {r : List Byte × RunStatus} :
    s.result = some r ↔ s.run ≠ .running ∧ r = (s.out, s.run) := by
  cases hr : s.run <;> simp [State.result, hr, eq_comm]

/-- The exit code of a terminal status (60_exceptions.md R147). -/
theorem RunStatus.exitCode_of_terminal {r : RunStatus} (h : r ≠ .running) :
    (r = .halted ∧ r.exitCode = some 0) ∨ ∃ op addr, r = .fault op addr ∧ r.exitCode = some 1 := by
  cases r with
  | running => exact absurd rfl h
  | halted => exact .inl ⟨rfl, rfl⟩
  | fault op addr => exact .inr ⟨op, addr, rfl, rfl⟩

/-! ### The host's run -/

section
variable {M : Host.Core} {s t : M.State}

theorem hostRun_succ_of_next (h : M.step s = .next t) (k : Nat) : M.run (k + 1) s = M.run k t := by
  rw [Host.Core.run, h]

theorem hostRun_succ_ne_next (h : ∀ u, M.step s ≠ .next u) (k : Nat) : M.run (k + 1) s ≠ .next t := by
  rw [Host.Core.run]
  cases hstep : M.step s with
  | next u => exact absurd hstep (h u)
  | fault r | refused r => exact fun h => by cases h

end

/-- The host's run takes the same first step from a running state as `runFor_succ_running`. -/
theorem hostRun_succ_running {s : State} (h : s.run = .running) (k : Nat) :
    Host.Core.run core (k + 1) s
      = Host.Core.run core k (effect standardConfig (fetchInstr standardConfig s) s) :=
  hostRun_succ_of_next (M := core) (step_eq_next.2 ⟨h, rfl⟩) k

/-- Where the model's run stays in a terminal state, the host's answers no state. -/
theorem hostRun_succ_terminal {s : State} (h : s.run ≠ .running) (k : Nat) (t : State) :
    Host.Core.run core (k + 1) s ≠ .next t :=
  hostRun_succ_ne_next (M := core) (fun _ hstep => h (step_eq_next.1 hstep).1) k

/-! ### The branch to itself -/

/-- The offset 0xFE is minus two: the target is the branch itself (44_branch.md R130). -/
theorem branchTarget_minus_two (pc : Word) : branchTarget pc 0xFE = pc := by
  have hoffset : (2 : Word) + sext16 0xFE = 0 := by decide
  rw [branchTarget, BitVec.add_assoc, hoffset, add_zero]

/-- A branch to itself with the carry clear changes nothing. -/
theorem effect_branch_to_itself {cfg : Config} {s : State} (hcarry : s.flag cfg .carry = false) :
    effect cfg (.bccRel 0xFE) s = s := by
  rw [effect, bccRelEffect, if_pos ((State.getCarry_eq_zero cfg s).2 hcarry), branchTarget_minus_two]
  rfl

/-! ### The obligations -/

/-- Settles O11: the match of the run status with the fetched byte holds along the run, and the step
after `k` is the effect of the instruction fetched there. -/
theorem runStopsOnlyAtHaltOrUnrecognized : Obligations.RunStopsOnlyAtHaltOrUnrecognized := by
  intro cfg k s hrun
  refine ⟨runFor_invariant (I := StatusMatchesFetch cfg) (fun _ => .effect) k (.inl hrun), fun hk => ?_⟩
  rw [runFor_add, runFor_succ_running hk, runFor_zero]
  exact effect_fetchInstr_running_iff hk

/-- Settles O12: both runs take the same steps while the core is running. -/
theorem hostRunAgreesWithRunFor : Obligations.HostRunAgreesWithRunFor := by
  intro k
  induction k with
  | zero => exact fun s => ⟨fun t h => by injection h, fun _ => rfl⟩
  | succ k ih =>
    intro s
    by_cases hrun : s.run = .running
    · rw [hostRun_succ_running hrun, runFor_succ_running hrun]
      exact ih _
    · rw [runFor_terminal hrun]
      exact ⟨fun t h => absurd h (hostRun_succ_terminal hrun k t), fun h => absurd h hrun⟩

/-- Settles O14: a state with a result is terminal, so the run stays in it. -/
theorem finishedRunKeepsItsResult : Obligations.FinishedRunKeepsItsResult := by
  intro cfg k s r h
  obtain ⟨hterminal, rfl⟩ := State.result_eq_some.1 h
  refine ⟨fun j => ?_, rfl, RunStatus.exitCode_of_terminal hterminal⟩
  rw [runFor_add, runFor_terminal hterminal, h]

/-- Settles O27: the branch is fetched and its effect is the state itself, so every run stays there. -/
theorem branchToItselfNeverEnds : Obligations.BranchToItselfNeverEnds := by
  intro s _ hop hoffset hcarry k
  have ho : opcodeOf standardConfig s.fetchOpcode = some .bcc := by
    rw [State.fetchOpcode, hop]; exact opcodeOf_opc standardConfig_legal .bcc
  have hfetch : fetchInstr standardConfig s = .bccRel 0xFE := by
    rw [fetchInstr_recognized ho, State.operandByte, hoffset]; rfl
  refine runFor_invariant (I := fun t => t = s) (fun t ht => ?_) k rfl
  rw [ht, hfetch, effect_branch_to_itself hcarry]

/-- Settles O10. -/
theorem terminalStatesNeverChange : Obligations.TerminalStatesNeverChange :=
  fun _ _ hterminal => ⟨stepWith_terminal hterminal, runFor_terminal hterminal⟩

/-- Settles O6: what the three bytes decode to is what the core fetches. -/
theorem stepRunsTheDecodedInstruction : Obligations.StepRunsTheDecodedInstruction := by
  intro s i rest hrun hdecode
  obtain ⟨_, hfetch⟩ := decode_bytes_at_pc standardConfig s
  cases hfetch.symm.trans hdecode
  exact step_running hrun

end Sys2Proof.Machine

/-! PROOFS about the instructions with an implied operand, HLT, NOP and CLC (spec 41_implied.md). First
the frame of an instruction and what a step that stops the core leaves, then the obligations. -/

namespace Sys2Proof.Machine

/-! ### The frame of an instruction -/

/-- An instruction other than STA leaves every byte of memory (20_memory.md R66). -/
theorem sameMemory_effect (cfg : Config) {i : Instr} (hi : ∀ addr, i ≠ .staAbs addr) (s : State) :
    SameMemory s (effect cfg i s) := by
  intro addr
  rw [readByte_effect, if_neg fun h => hi addr h.1]

/-- At the standard layout the flags outside the table's list keep their values (10_state.md R29). -/
theorem sameFlagsBut_effect (i : Instr) (s : State) :
    SameFlagsBut (flagsWritten i) s (effect standardConfig i s) :=
  fun _ hf => flag_effect_of_not_written standardConfig_legal hf s

/-- CMP alone raises the carry: the one other instruction that writes it, CLC, clears it
(41_implied.md R102). -/
theorem eq_cmpImm_of_carry_raised {cfg : Config} (hcfg : cfg.Legal) {i : Instr} {s : State}
    (hbefore : s.flag cfg .carry = false) (hafter : (effect cfg i s).flag cfg .carry = true) :
    ∃ imm, i = .cmpImm imm := by
  rw [flag_effect hcfg, hbefore] at hafter
  cases i with
  | cmpImm imm => exact ⟨imm, rfl⟩
  | _ => exact absurd hafter Bool.false_ne_true

/-! ### A step that stops the core -/

@[simp] theorem State.setRun_setRun (s : State) (r r' : RunStatus) :
    (s.setRun r).setRun r' = s.setRun r' := rfl

theorem State.setRun_of_run_eq {s : State} {r : RunStatus} (h : s.run = r) : s.setRun r = s := by
  subst h; rfl

/-- A terminal state answers the reason for which it stopped (40_step_cycle.md R95). -/
theorem step_terminal {s : State} {reason : Fault} (h : stopReason s.run = some reason) :
    step s = .fault reason := by
  rw [step, h]

/-- A step that changes the run status alone, to a terminal one, loses nothing of the state before it
and is the last. -/
theorem step_stops {s : State} {r : RunStatus} {reason : Fault} (hrun : s.run = .running)
    (heff : effect standardConfig (fetchInstr standardConfig s) s = s.setRun r)
    (hr : stopReason r = some reason) :
    ∃ t, step s = .next t ∧ t.run = r ∧ t.setRun .running = s ∧ step t = .fault reason :=
  ⟨s.setRun r, step_eq_next.2 ⟨hrun, heff.symm⟩, s.setRun_run r,
    (s.setRun_setRun r .running).trans (State.setRun_of_run_eq hrun), step_terminal hr⟩

/-! ### The obligations -/

/-- Settles O17: the flags by the table and `flag_effect`, the rest by the frame of an instruction. -/
theorem clcClearsOnlyTheCarry : Obligations.ClcClearsOnlyTheCarry := by
  refine ⟨fun _ => rfl, fun s => ⟨effect standardConfig .clc s, exec_eq_effect _ s, ?_⟩,
    fun i s t h hbefore hafter => ?_⟩
  · exact ⟨flag_effect standardConfig_legal .clc s .carry, sameFlagsBut_effect .clc s,
      Word.toNat_add_ofNat s.pc 1, rfl, effect_inert _ _ s,
      sameMemory_effect _ (fun _ => Instr.noConfusion) s, rfl, effect_run _ .clc s⟩
  · rw [exec_eq_effect] at h
    obtain rfl : effect standardConfig i s = t := by injection h
    exact eq_cmpImm_of_carry_raised standardConfig_legal hbefore hafter

/-- Settles O25: HLT's byte is fetched as HLT, which changes the run status alone. -/
theorem haltIsFinal : Obligations.HaltIsFinal := by
  intro s hrun hop
  have heff : effect standardConfig (fetchInstr standardConfig s) s = s.setRun .halted := by
    rw [fetchInstr_recognized hop]; rfl
  exact step_stops hrun heff rfl

/-- Settles O15. -/
theorem hltHaltsAndChangesNothingElse : Obligations.HltHaltsAndChangesNothingElse := fun s =>
  ⟨effect standardConfig .hlt s, exec_eq_effect _ s, effect_run _ .hlt s, effect_pc _ .hlt s, rfl, rfl,
    effect_inert _ _ s, sameMemory_effect _ (fun _ => Instr.noConfusion) s, rfl⟩

/-- Settles O16. -/
theorem nopOnlyAdvances : Obligations.NopOnlyAdvances :=
  ⟨fun _ => rfl, fun s =>
    ⟨effect standardConfig .nop s, exec_eq_effect _ s, Word.toNat_add_ofNat s.pc 1, rfl, rfl,
      effect_inert _ _ s, sameMemory_effect _ (fun _ => Instr.noConfusion) s, rfl, effect_run _ .nop s⟩⟩

end Sys2Proof.Machine

/-! PROOFS about the load and the store, LDA #imm and STA abs (spec 42_load_store.md). First the
accumulator, the operand of the store and where it writes, then the obligations. -/

namespace Sys2Proof.Machine

/-- All that an instruction does to the accumulator (10_state.md R21): LDA and ADC alone write it. -/
theorem effect_a (cfg : Config) (i : Instr) (s : State) :
    (effect cfg i s).a
      = match i with
        | .ldaImm imm => imm
        | .adcImm imm => adcSum s.a imm (s.getCarry cfg)
        | _ => s.a := by
  cases i with
  | hlt | nop | clc | unrecognized op => rfl
  | ldaImm imm => rw [effect, ldaImmEffect, State.setA_setZN]; rfl
  | adcImm imm => rw [effect, adcImmEffect, State.setA_setZN]; rfl
  | staAbs addr => exact State.writeByte_a cfg s addr s.a
  | cmpImm imm => exact State.compareFlags_a cfg s imm
  | bccRel rel => simp only [effect, bccRelEffect]; split <;> rfl

/-- The operand of STA is the little-endian word at `PC + 1` (30_encoding.md R76). -/
theorem fetchInstr_staAbs {cfg : Config} {s : State} (h : opcodeOf cfg s.fetchOpcode = some .staAbs) :
    fetchInstr cfg s = .staAbs (s.readWord (s.pc + 1)) := by
  have hhigh : s.pc + 1 + 1 = s.pc + 2 := BitVec.add_assoc s.pc 1 1
  rw [fetchInstr_recognized h, State.readWord, hhigh]
  rfl

/-- At the port STA leaves memory when the port does not store (decision D9). -/
theorem sameMemory_staAbs_ioPort {cfg : Config} (hstores : cfg.portStores = false) (s : State) :
    SameMemory s (effect cfg (.staAbs ioPort) s) := by
  intro other
  rw [readByte_effect, if_neg]
  rintro ⟨hport, hstore⟩
  obtain rfl : ioPort = other := by injection hport
  exact absurd (hstores.symm.trans (hstore rfl)) Bool.false_ne_true

/-- Anywhere else STA stores the accumulator at its address and at no other (20_memory.md R44). -/
theorem readByte_staAbs_of_ne_ioPort (cfg : Config) {addr : Word} (haddr : addr ≠ ioPort) (s : State)
    (other : Word) : (effect cfg (.staAbs addr) s).readByte other
      = if other = addr then s.a else s.readByte other := by
  have h : (effect cfg (.staAbs addr) s).readByte other
      = (s.writeByte cfg addr s.a).readByte other := rfl
  rw [h, State.readByte_writeByte]
  simp [haddr]

/-! ### The obligations -/

/-- Settles O18: the flags by the table and `flag_effect`, the rest by the frame of an instruction. -/
theorem ldaLoadsAndSetsZeroAndNegative : Obligations.LdaLoadsAndSetsZeroAndNegative := by
  refine ⟨fun _ _ => rfl, fun _ => fetchInstr_recognized, fun imm s =>
    ⟨effect standardConfig (.ldaImm imm) s, exec_eq_effect _ s, effect_a _ _ s, ?_, ?_,
      sameFlagsBut_effect (.ldaImm imm) s, ?_, effect_inert _ _ s, ?_, ?_, effect_run _ _ s⟩⟩
  · rw [flag_effect standardConfig_legal]; exact decide_eq_zero_eq_decide_toNat imm
  · rw [flag_effect standardConfig_legal]; exact getLsbD_seven_eq_decide imm
  · rw [effect_pc]; exact Word.toNat_add_ofNat s.pc 2
  · exact sameMemory_effect _ (fun _ => Instr.noConfusion) s
  · exact (effect_mem_of_not_sta _ (fun _ => Instr.noConfusion) s).2

/-- Settles O19: the address decides between emission and store, the rest by the frame of an
instruction. -/
theorem staStoresOrEmits : Obligations.StaStoresOrEmits := by
  refine ⟨fun _ => fetchInstr_staAbs, fun addr s =>
    ⟨effect standardConfig (.staAbs addr) s, exec_eq_effect _ s, fun haddr => ?_, fun haddr => ?_,
      ?_, effect_a _ _ s, State.writeByte_p _ s addr s.a, effect_inert _ _ s, effect_run _ _ s⟩⟩
  · obtain rfl : addr = ioPort := haddr
    exact ⟨effect_out _ _ s, sameMemory_staAbs_ioPort rfl s⟩
  · have hread := readByte_staAbs_of_ne_ioPort standardConfig haddr s
    exact ⟨(State.writeByte_out _ s addr s.a).trans (if_neg haddr), (hread addr).trans (if_pos rfl),
      fun other hother => (hread other).trans (if_neg hother)⟩
  · rw [effect_pc]; exact Word.toNat_add_ofNat s.pc 3

end Sys2Proof.Machine

/-! PROOFS about the ALU instructions, ADC #imm and CMP #imm (spec 43_arithmetic_compare.md). First what
the two share as instructions with an immediate operand, then the sum and the comparison as numbers,
then the obligations. -/

namespace Sys2Proof.Machine

/-- The frame of an immediate instruction: two bytes on, the inert registers, memory, the output and
the run status as before (30_encoding.md R75, R78). -/
theorem effect_frame_of_immediate (cfg : Config) {i : Instr} {o : Opcode} (hop : i.opcode? = some o)
    (hmode : o.mode = .immediate) (s : State) :
    (effect cfg i s).pc.toNat = (s.pc.toNat + 2) % 65536 ∧ SameInert s (effect cfg i s) ∧
      SameMemory s (effect cfg i s) ∧ (effect cfg i s).out = s.out ∧ (effect cfg i s).run = s.run := by
  have hsta : ∀ addr, i ≠ .staAbs addr := by
    rintro addr rfl
    cases hop
    cases hmode
  have hnext : (effect cfg i s).pc = s.pc + BitVec.ofNat 16 2 ∧ (effect cfg i s).run = s.run := by
    cases i with
    | ldaImm imm | adcImm imm | cmpImm imm => exact ⟨effect_pc cfg _ s, effect_run cfg _ s⟩
    | _ => cases hop <;> cases hmode
  obtain ⟨hpc, hrun⟩ := hnext
  exact ⟨hpc ▸ Word.toNat_add_ofNat s.pc 2, effect_inert cfg i s, sameMemory_effect cfg hsta s,
    (effect_mem_of_not_sta cfg hsta s).2, hrun⟩

/-- The sum of ADC as a number (43_arithmetic_compare.md R120). -/
theorem toNat_adcSum (a imm : Byte) (carryIn : Nat) :
    (adcSum a imm carryIn).toNat = (a.toNat + imm.toNat + carryIn) % 256 :=
  BitVec.toNat_ofNat _ 8

section
variable {cfg : Config} (hcfg : cfg.Legal) (imm : Byte) (s : State)
include hcfg

/-- ADC's zero and negative follow the new accumulator (10_state.md R31). -/
theorem flags_adcImm :
    (effect cfg (.adcImm imm) s).flag cfg .zero = decide ((effect cfg (.adcImm imm) s).a.toNat = 0) ∧
    (effect cfg (.adcImm imm) s).flag cfg .negative
      = decide (0x80 ≤ (effect cfg (.adcImm imm) s).a.toNat) := by
  rw [flag_effect hcfg, flag_effect hcfg, effect_a]
  exact ⟨decide_eq_zero_eq_decide_toNat _, getLsbD_seven_eq_decide _⟩

/-- CMP's zero and carry, in the equivalent form of 43_arithmetic_compare.md R121. -/
theorem flags_cmpImm :
    (effect cfg (.cmpImm imm) s).flag cfg .zero = decide (s.a.toNat = imm.toNat) ∧
    (effect cfg (.cmpImm imm) s).flag cfg .carry = decide (imm.toNat ≤ s.a.toNat) := by
  rw [flag_effect hcfg, flag_effect hcfg]
  exact ⟨decide_eq_decide.2 BitVec.toNat_inj.symm, rfl⟩

end

/-! ### The obligations -/

/-- Settles O20: the new accumulator is the sum, whose carry-in is the carry as an integer, and zero
and negative follow it; the other flags are outside the table's list for ADC. -/
theorem adcAddsWithCarryIn : Obligations.AdcAddsWithCarryIn := by
  refine ⟨fun _ _ => rfl, fun _ => fetchInstr_recognized, fun imm s =>
    ⟨effect standardConfig (.adcImm imm) s, exec_eq_effect _ s, ?_, ?_⟩⟩
  · rw [effect_a]; exact toNat_adcSum s.a imm (s.getCarry standardConfig)
  · obtain ⟨hzero, hnegative⟩ := flags_adcImm standardConfig_legal imm s
    exact ⟨hzero, hnegative, sameFlagsBut_effect (.adcImm imm) s,
      effect_frame_of_immediate standardConfig rfl rfl s⟩

/-- Settles O21: the three cases are readings of `flags_cmpImm`; that CMP alone raises the carry is
the last clause of `clcClearsOnlyTheCarry`. -/
theorem cmpComparesUnsigned : Obligations.CmpComparesUnsigned := by
  obtain ⟨-, -, honly⟩ := clcClearsOnlyTheCarry
  refine ⟨fun _ _ => rfl, fun _ => fetchInstr_recognized, fun imm s =>
    ⟨effect standardConfig (.cmpImm imm) s, exec_eq_effect _ s, ?_⟩, honly⟩
  obtain ⟨hzero, hcarry⟩ := flags_cmpImm standardConfig_legal imm s
  obtain ⟨hpc, hrest⟩ := effect_frame_of_immediate standardConfig (i := .cmpImm imm) rfl rfl s
  rw [hzero, hcarry]
  simp only [decide_eq_true_eq, decide_eq_false_iff_not]
  refine ⟨fun heq => ⟨heq, heq.ge⟩, fun hlt => ⟨hlt.ne, hlt.not_ge⟩, fun hgt => ⟨hgt.ne', hgt.le⟩, ?_⟩
  exact ⟨sameFlagsBut_effect (.cmpImm imm) s, hpc, effect_a _ _ s, hrest⟩

end Sys2Proof.Machine

/-! PROOFS about the control transfer, BCC rel (spec 44_branch.md). First the target as a number and the
one component that BCC writes, then the obligation. -/

namespace Sys2Proof.Machine

/-- The target of a taken branch as a number: the offset is signed and the sum wraps (00_scope.md R7,
R8). -/
theorem toNat_branchTarget (pc : Word) (rel : Byte) :
    ((branchTarget pc rel).toNat : Int) = ((pc.toNat : Int) + 2 + rel.toInt) % 65536 := by
  have htarget : branchTarget pc rel = BitVec.ofInt 16 (pc.toNat + 2 + rel.toInt) := by
    rw [BitVec.ofInt_add, BitVec.ofInt_add, BitVec.ofInt_natCast, BitVec.ofNat_toNat,
      BitVec.setWidth_eq]
    rfl
  rw [htarget, BitVec.toNat_ofInt, Int.toNat_of_nonneg (Int.emod_nonneg _ (by decide))]
  rfl

/-- BCC writes the program counter alone, and the carry chooses between the two next addresses
(44_branch.md R130). -/
theorem effect_bccRel (cfg : Config) (rel : Byte) (s : State) :
    effect cfg (.bccRel rel) s
      = s.setPc (if s.flag cfg .carry then s.pc + 2 else branchTarget s.pc rel) := by
  rw [effect, bccRelEffect]
  cases hcarry : s.flag cfg .carry with
  | false => exact if_pos ((State.getCarry_eq_zero cfg s).2 hcarry)
  | true =>
    have hset : s.getCarry cfg ≠ 0 := by simp [State.getCarry_eq_zero, hcarry]
    exact if_neg hset

/-! ### The obligation -/

/-- Settles O22: the next state is the old one with the program counter that the carry chooses, so the
frame is immediate and the two addresses are left to be read as numbers. -/
theorem bccBranchesOnCarryClear : Obligations.BccBranchesOnCarryClear := by
  refine ⟨fun _ _ => rfl, fun _ => fetchInstr_recognized, fun rel s =>
    ⟨_, (exec_eq_effect _ s).trans (congrArg _ (effect_bccRel _ rel s)), fun hclear => ?_, fun hset => ?_,
      rfl, rfl, ⟨rfl, rfl, rfl⟩, fun _ => rfl, rfl, rfl⟩⟩
  · rw [hclear]; exact toNat_branchTarget s.pc rel
  · rw [hset]; exact Word.toNat_add_ofNat s.pc 2

end Sys2Proof.Machine

/-! PROOFS about the one exception, IllegalOpcode, and the diagnostic trace (spec 60_exceptions.md).
First which fetched byte can raise it and which steps certainly emit a record, then the obligations. -/

namespace Sys2Proof.Machine

/-- The fetched instruction of an unfaulted core takes the fault exactly where the opcode byte is
unrecognized (60_exceptions.md R140, R145). -/
theorem safe_effect_fetchInstr_iff {cfg : Config} {s : State} (h : Safe s) :
    Safe (effect cfg (fetchInstr cfg s) s) ↔ opcodeOf cfg s.fetchOpcode ≠ none := by
  obtain ⟨ho, heff⟩ | ⟨ho, heff⟩ | ⟨o, -, ho, hrun⟩ := effect_fetchInstr_cases cfg s
  · rw [heff]
    exact iff_of_false (fun hsafe => hsafe _ _ rfl) (fun hsome => hsome ho)
  · rw [heff, ho]
    exact iff_of_true (fun _ _ => RunStatus.noConfusion) (Option.some_ne_none _)
  · rw [Safe, hrun, ho]
    exact iff_of_true h (Option.some_ne_none _)

/-- A byte is recognised exactly when it is a value of `OPC` (30_encoding.md R79). -/
theorem opcodeOf_ne_none {cfg : Config} {op : Byte} : opcodeOf cfg op ≠ none ↔ ∃ o, cfg.opc o = op := by
  rw [Ne, opcodeOf_eq_none, not_forall_not]

/-! ### The trace along a run -/

/-- A run that ends in a running state began in one. -/
theorem running_of_runFor_running {cfg : Config} {k : Nat} {s : State}
    (h : (runFor cfg k s).run = .running) : s.run = .running := by
  by_contra hterminal
  exact hterminal (runFor_terminal hterminal k ▸ h)

/-- An instruction that leaves the core running is none of the two whose record is open
(91_not_in_source.md N8). -/
theorem emitsRecord_of_effect_running {cfg : Config} {i : Instr} {s : State}
    (h : (effect cfg i s).run = .running) : emitsRecord i = true := by
  rw [effect_run] at h
  cases i with
  | hlt | unrecognized op => cases h
  | _ => rfl

/-- A step from a running state to a running state puts its record first (60_exceptions.md R154). -/
theorem traceFor_succ_of_running {cfg : Config} {s : State} (hs : s.run = .running)
    (ht : (effect cfg (fetchInstr cfg s) s).run = .running) (k : Nat) :
    traceFor cfg (k + 1) s = traceRecord s (effect cfg (fetchInstr cfg s) s)
      :: traceFor cfg k (effect cfg (fetchInstr cfg s) s) := by
  simp [traceFor, stepWith_running hs, emitsRecord_of_effect_running ht]

/-! ### The obligations -/

/-- Settles O9: the three cases of `effect_fetchInstr_cases` are the three arms of the statement. -/
theorem runStatusFollowsTheOpcode : Obligations.RunStatusFollowsTheOpcode := by
  intro s t h
  obtain ⟨hrunning, rfl⟩ := step_eq_next.1 h
  obtain ⟨ho, heff⟩ | ⟨ho, heff⟩ | ⟨o, hne, ho, hrun⟩ := effect_fetchInstr_cases standardConfig s
  · rw [ho, heff]; rfl
  · rw [ho, heff]; rfl
  · rw [ho]
    cases o with
    | hlt => exact absurd rfl hne
    | _ => exact hrun.trans hrunning

/-- Settles O13. -/
theorem stepStaysSafeExactlyOnRecognisedOpcodes :
    Obligations.StepStaysSafeExactlyOnRecognisedOpcodes := by
  intro s t hsafe h
  obtain ⟨-, rfl⟩ := step_eq_next.1 h
  exact (safe_effect_fetchInstr_iff hsafe).trans opcodeOf_ne_none

/-- Settles O24: an unrecognized byte is fetched as the catch-all, which changes the run status alone. -/
theorem faultIsPreciseAndFinal : Obligations.FaultIsPreciseAndFinal := by
  intro s hrun hop
  have heff : effect standardConfig (fetchInstr standardConfig s) s
      = s.setRun (.fault s.fetchOpcode s.pc) := by
    rw [fetchInstr_unrecognized hop]; rfl
  exact step_stops hrun heff rfl

/-- Settles O52, by induction on the number of steps: every state of a run that ends running is
running, so every step of it emits its record. -/
theorem traceHasOneRecordPerStep : Obligations.TraceHasOneRecordPerStep := by
  intro cfg k
  induction k with
  | zero => exact fun _ _ => rfl
  | succ k ih =>
    intro s h
    have hs := running_of_runFor_running h
    rw [runFor_succ_running hs] at h
    rw [traceFor_succ_of_running hs (running_of_runFor_running h), List.length_cons, ih _ h]

/-- Settles O23. -/
theorem unrecognizedOpcodeTakesTheFault : Obligations.UnrecognizedOpcodeTakesTheFault := fun op s =>
  ⟨effect standardConfig (.unrecognized op) s, exec_eq_effect _ s, effect_run _ _ s, effect_pc _ _ s, rfl,
    rfl, effect_inert _ _ s, sameMemory_effect _ (fun _ => Instr.noConfusion) s, rfl⟩

end Sys2Proof.Machine

/-! PROOFS about reset (spec 70_reset_and_hazards.md). First what placing the image and forcing the vector
do to memory and the output, then the components of the state that an image boots to, then the
obligations. -/

namespace Sys2Proof.Machine

/-! ### The actions of reset -/

/-- Actions 1 and 2 leave the image from address zero and 0x00 above it (R161, R162). -/
theorem readByte_placeImage (cfg : Config) {image : List Byte} (hlen : image.length ≤ memorySize)
    (addr : Word) : (placeImage image (clearedState cfg)).readByte addr = image.getD addr.toNat 0 := by
  have hcleared : (clearedState cfg).readByte addr = 0 := rfl
  have hbase : addr - loadBase = addr := BitVec.sub_zero addr
  rw [placeImage, State.readByte_pokeAll _ _ _ hlen, hcleared, hbase]
  split
  · rfl
  · rw [List.getD_eq_default _ _ (by omega)]

/-- Action 3 clears the two bytes of the vector, neither of which is the port (R162). -/
theorem readByte_forceResetVector (cfg : Config) (s : State) (addr : Word) :
    (forceResetVector cfg s).readByte addr
      = if addr = 0xFFFC ∨ addr = 0xFFFD then 0 else s.readByte addr := by
  have hlow : resetVector ≠ ioPort := by decide
  have hhigh : resetVector + 1 ≠ ioPort := by decide
  have hvector : addr = 0xFFFC ∨ addr = 0xFFFD ↔ addr = resetVector + 1 ∨ addr = resetVector := Or.comm
  rw [forceResetVector, State.writeWord, State.readByte_writeByte, State.readByte_writeByte]
  simp only [hlow, hhigh, hvector, false_implies, and_true, ite_or]
  rfl

/-- Action 3 emits nothing: the vector is not at the port (R162). -/
theorem forceResetVector_out (cfg : Config) (s : State) : (forceResetVector cfg s).out = s.out := by
  rw [forceResetVector, State.writeWord, State.writeByte_out, if_neg (by decide), State.writeByte_out,
    if_neg (by decide)]

/-! ### The booted state -/

/-- An image that does not fit is refused (R166; decision D12). -/
theorem boot_of_too_long (cfg : Config) {image : List Byte} (h : memorySize < image.length) :
    boot cfg image = .refused (.imageTooLong image.length) :=
  if_neg (Nat.not_le.2 h)

section
variable {cfg : Config} {image : List Byte} {s : State} (h : boot cfg image = .next s)
include h

/-- A booted core runs and has emitted nothing, even for an image byte at the port (R162, R164). -/
theorem boot_run_out : s.run = .running ∧ s.out = [] := by
  obtain ⟨-, rfl⟩ := boot_eq_next.1 h
  obtain ⟨m, hm⟩ := State.pokeAll_rest (clearedState cfg) loadBase image
  rw [State.setPc_run, State.setPc_out, forceResetVector_out, placeImage, hm]
  exact ⟨State.writeWord_run .., rfl⟩

/-- The memory of a booted core: the image with the vector cleared, and 0x00 above it (R161, R162). -/
theorem boot_readByte (addr : Word) :
    s.readByte addr = if addr = 0xFFFC ∨ addr = 0xFFFD then 0 else image.getD addr.toNat 0 := by
  obtain ⟨hlen, rfl⟩ := boot_eq_next.1 h
  rw [State.readByte_setPc, readByte_forceResetVector, readByte_placeImage cfg hlen]

/-- The memory of a booted core is in canonical form. -/
theorem boot_mem_wf : s.mem.wf := by
  obtain ⟨-, rfl⟩ := boot_eq_next.1 h
  exact State.writeWord_wf cfg _ _ (State.pokeAll_wf _ image State.reset_mem_wf)

end

/-! ### The obligations -/

/-- Settles O46: every byte is placed by a write that keeps the canonical form, and the core runs. -/
theorem bootMeetsTheInvariant : Obligations.BootMeetsTheInvariant := by
  intro image s h
  obtain ⟨hrun, -⟩ := boot_run_out h
  refine ⟨boot_mem_wf h, ?_⟩
  rw [StatusMatchesMemory, hrun]
  trivial

/-- Settles O49, by the components of the booted state. -/
theorem bootLaysOutTheImage : Obligations.BootLaysOutTheImage := by
  refine fun cfg image => ⟨fun hlen => ?_, boot_of_too_long cfg⟩
  have h := boot_eq_next (cfg := cfg).2 ⟨hlen, rfl⟩
  obtain ⟨ha, hx, hy, hsp, hpc, hp⟩ := boot_registers h
  obtain ⟨hrun, hout⟩ := boot_run_out h
  exact ⟨_, h, hpc, ha, hx, hy, hsp, hp, hrun, hout, boot_readByte h⟩

/-- Settles O50: clearing the vector of a cleared memory lists no byte. -/
theorem resetIsBootWithNoImage : Obligations.ResetIsBootWithNoImage :=
  boot_eq_next.2 ⟨Nat.zero_le _, rfl⟩

end Sys2Proof.Machine

/-! PROOFS about the words numbered as the opcode table numbers them (spec 30_encoding.md section 3). First
what the decoder reads from such a word, then the obligation. -/

namespace Sys2Proof

/-! ### What a table word decodes to -/

/-- A table word always has the operand bytes, so an opcode byte of an operation gives that operation with
the word's second and third byte. -/
theorem decodeTableWord_recognized {nbits w : Nat} {o : Opcode}
    (h : opcodeOf standardConfig (BitVec.ofNat 8 (w % 2 ^ nbits)) = some o) :
    decodeTableWord nbits w = some
      (assemble o (BitVec.ofNat 8 (w % 2 ^ nbits / 256)) (BitVec.ofNat 8 (w % 2 ^ nbits / 65536))) := by
  rw [decodeTableWord, tableBytes, decode_recognized h]
  · rfl
  · exact o.mode.operandWidth_le_two

/-- Any other opcode byte gives the catch-all row (R79). -/
theorem decodeTableWord_unrecognized {nbits w : Nat}
    (h : opcodeOf standardConfig (BitVec.ofNat 8 (w % 2 ^ nbits)) = none) :
    decodeTableWord nbits w = some (.unrecognized (BitVec.ofNat 8 (w % 2 ^ nbits))) := by
  rw [decodeTableWord, tableBytes, decode_unrecognized h]

/-! ### The obligation -/

/-- Settles O5: the opcode map finds the low byte of each word but the last. -/
theorem tableWordsDecode : Obligations.TableWordsDecode :=
  ⟨decodeTableWord_recognized (o := .hlt) rfl, decodeTableWord_recognized (o := .nop) rfl,
    decodeTableWord_recognized (o := .clc) rfl, decodeTableWord_recognized (o := .ldaImm) rfl,
    decodeTableWord_recognized (o := .staAbs) rfl, decodeTableWord_recognized (o := .adcImm) rfl,
    decodeTableWord_recognized (o := .cmpImm) rfl, decodeTableWord_recognized (o := .bcc) rfl,
    decodeTableWord_unrecognized rfl⟩

end Sys2Proof
